-- ==== Sys2Proof/Word.lean ====
section
/-! DEFINITION. The one data width of the hardware: a 32-bit unsigned word (00_scope.md R6, R10). -/

namespace Sys2Proof

/-- A memory word, a register, an operand, an ALU input or output: 32 bits, unsigned
(00_scope.md R6, R10; 10_state.md R23). -/
abbrev Word := BitVec 32

end Sys2Proof
end

