-- ==== Sys2Proof/Config.lean ====
section
/-! DEFINITION. What one implementation fixes (00_scope.md R7): the arguments a model takes because the
spec fixes no value for them, and the one behaviour it leaves open as a function, `SHIFT_OVER`. -/

namespace Sys2Proof

/-- The direction of a shift, an argument of `SHIFT_OVER` (45_shift.md R197). -/
inductive ShiftDir where
  | left
  | right
  deriving DecidableEq, Repr

/-- A Memory mounted on a Bus with its assigned range, both ends included (20_memory.md R67). Its capacity
is the length of `mem`. -/
structure Device where
  mem : List Word
  floor : Word
  ceil : Word
  deriving DecidableEq, Repr

/-- One answer of the display to `getWidth` and `getHeight` (60_exceptions.md R274, R276). -/
structure DisplaySize where
  width : Word
  height : Word
  deriving DecidableEq, Repr

/-- The part of `RESET_REGS` that belongs to one Core: a value for each of its registers whose reset value
the spec does not give (10_state.md R52). -/
structure CoreResetRegs where
  flags : Word
  si : Word
  di : Word
  g : Vector Word 16
  p : Vector Word 13
  deriving DecidableEq, Repr

/-- The parameters of 00_scope.md R7. `NCORES` is one more than the length of `otherCores`, so that a
configuration without a Core cannot be written (70_reset_and_hazards.md R302, 90_conflicts.md C1);
`DISK_CAPACITY` is the length of `disk`. `RESET_REGS` is spread over `core0`, `otherCores`, `cflags`,
`shared`, `northBusValue` and `southBusValue`. -/
structure Config where
  ramCapacity : Nat
  disk : List Word
  northDevices : List Device
  southDevices : List Device
  displayInputs : List DisplaySize
  arithViaLoad : Bool
  core0 : CoreResetRegs
  otherCores : List CoreResetRegs
  cflags : Word
  shared : Vector Word 4
  northBusValue : Word
  southBusValue : Word
  deriving DecidableEq, Repr

/-- DESIGN CHOICE (log 4), unsafe: zero for every register whose reset value the spec leaves to
`RESET_REGS` (10_state.md R52). -/
def zeroCoreRegs : CoreResetRegs :=
  { flags := 0, si := 0, di := 0, g := Vector.replicate 16 0, p := Vector.replicate 13 0 }

/-- DESIGN CHOICE (log 5), unsafe: the configuration of `State.reset`. One Core, the largest RAM that
00_scope.md R7 admits, an empty disk, no device (decision D32), `ARITH_VIA_LOAD = false` (R7), a display
that is not initialised, and `RESET_REGS` all zero. -/
def defaultConfig : Config :=
  { ramCapacity := 0xFFFFFFFF
    disk := []
    northDevices := []
    southDevices := []
    displayInputs := []
    arithViaLoad := false
    core0 := zeroCoreRegs
    otherCores := []
    cflags := 0
    shared := Vector.replicate 4 0
    northBusValue := 0
    southBusValue := 0 }

/-- `SHIFT_OVER(direction, a, n)`: the result of shifting `a` by a count `n` of 32 or more
(45_shift.md R197, OPEN; log 8). A free value, which depends on its arguments only. -/
opaque shiftOver (dir : ShiftDir) (a n : Word) : Word

end Sys2Proof
end

