-- ==== Sys2Proof/Syntax.lean ====
section
/-! DEFINITION. The instructions of the hardware, one constructor for each row of spec/opcode_table.json
(30_encoding.md R97), and the names of its registers (10_state.md R22). -/

namespace Sys2Proof

/-- The 27 registers of the unified register address space (10_state.md R22). `g k` is general register
`k` of the executing Core, `s k` is shared register `k` of the CPU. -/
inductive Reg where
  | cflags
  | flags
  | pc
  | sp
  | bp
  | si
  | di
  | g (k : Fin 16)
  | s (k : Fin 4)
  deriving DecidableEq, Repr

/-- One instruction with its operand words as fetched (30_encoding.md R90, R97). An operand named after a
register is a whole register-address word (R94): it may name no register, and executing the instruction
then raises a fault (10_state.md R28). A literal is the whole word (R93). Operands stand in the order of
their words; which kind each is, the mnemonic's suffix says (R91). -/
inductive Instr where
  | nop
  | intL (vector : Word)
  | intR (vector : Word)
  | movRl (dst : Word) (value : Word)
  | movRr (dst : Word) (src : Word)
  | compLl (a : Word) (b : Word)
  | compRl (a : Word) (b : Word)
  | compRr (a : Word) (b : Word)
  | jeqL (target : Word)
  | jeqR (target : Word)
  | jltL (target : Word)
  | jltR (target : Word)
  | jgtL (target : Word)
  | jgtR (target : Word)
  | jneqL (target : Word)
  | jneqR (target : Word)
  | addRl (dst : Word) (operand : Word)
  | addRr (dst : Word) (operand : Word)
  | subRl (dst : Word) (operand : Word)
  | subRr (dst : Word) (operand : Word)
  | mulRl (dst : Word) (operand : Word)
  | mulRr (dst : Word) (operand : Word)
  | divRl (dst : Word) (operand : Word)
  | divRr (dst : Word) (operand : Word)
  | powRl (dst : Word) (operand : Word)
  | powRr (dst : Word) (operand : Word)
  | andRl (dst : Word) (operand : Word)
  | andRr (dst : Word) (operand : Word)
  | orRl (dst : Word) (operand : Word)
  | orRr (dst : Word) (operand : Word)
  | norRl (dst : Word) (operand : Word)
  | norRr (dst : Word) (operand : Word)
  | xorRl (dst : Word) (operand : Word)
  | xorRr (dst : Word) (operand : Word)
  | notR (reg : Word)
  | halt
  | lshiftRl (reg : Word) (count : Word)
  | lshiftRr (reg : Word) (count : Word)
  | rshiftRl (reg : Word) (count : Word)
  | rshiftRr (reg : Word) (count : Word)
  | jgteqL (target : Word)
  | jgteqR (target : Word)
  | jlteqL (target : Word)
  | jlteqR (target : Word)
  | lshiftCarryRl (reg : Word) (count : Word)
  | lshiftCarryRr (reg : Word) (count : Word)
  | rshiftCarryRl (reg : Word) (count : Word)
  | rshiftCarryRr (reg : Word) (count : Word)
  | jmpL (target : Word)
  | jmpR (target : Word)
  | callL (target : Word)
  | callR (target : Word)
  | ret
  | ldmRl (dst : Word) (addr : Word)
  | ldmRr (dst : Word) (addr : Word)
  | svmRl (addr : Word) (value : Word)
  | svmRr (addr : Word) (value : Word)
  | svmLl (addr : Word) (value : Word)
  | svmLr (addr : Word) (value : Word)
  /-- Every opcode word outside the table, a one-word no-op (30_encoding.md R99, R100). -/
  | unknown (opword : Word)
  deriving DecidableEq, Repr

end Sys2Proof
end

