-- ==== Sys2Proof/WellFormed.lean ====
section
/-! DEFINITION. Which instruction terms stand for an encoding, and which configurations the hardware
admits. Both are decidable. -/

namespace Sys2Proof

/-- The unknown opcode values that lie inside the table's range (30_encoding.md R100). -/
def unknownHoles : List Word :=
  [0x05, 0x06, 0x28, 0x29, 0x2C, 0x2D, 0x34, 0x35, 0x38, 0x39, 0x3F]

/-- The opcode words that name no instruction (30_encoding.md R100). -/
def isUnknownOpword (w : Word) : Bool :=
  unknownHoles.contains w || decide (0x46 ≤ w.toNat)

/-- An instruction term is well formed when it is the reading of some words: the catch-all constructor
holds an opcode word that the table does not list. Every operand word is admitted: a register address
above 0x1A is a legal encoding whose execution faults (30_encoding.md R94). -/
def Instr.wf : Instr → Bool
  | .unknown w => isUnknownOpword w
  | _ => true

/-- The number of words `bootup` copies: `min(BOOTLOADER_LENGTH, DISK_CAPACITY)`
(70_reset_and_hazards.md R303; 00_scope.md R6). -/
def bootLength (diskCapacity : Nat) : Nat :=
  min 100 diskCapacity

/-- The constraints of 00_scope.md R7 on the capacities (70_reset_and_hazards.md R302). That there is at
least one Core holds by the shape of `Config` and of the state. -/
def validCapacities (ramCapacity diskCapacity : Nat) : Bool :=
  decide (1 ≤ ramCapacity) && decide (ramCapacity ≤ 0xFFFFFFFF) &&
    decide (diskCapacity ≤ 0xFFFFFFFF) && decide (bootLength diskCapacity ≤ ramCapacity)

/-- A configuration the spec admits (70_reset_and_hazards.md R302). -/
def Config.valid (cfg : Config) : Bool :=
  validCapacities cfg.ramCapacity cfg.disk.length

end Sys2Proof
end

