-- ==== Sys2Proof/Decode.lean ====
section
/-! DEFINITION. The decoder and the encoder of 30_encoding.md. An instruction is a sequence of whole 32-bit
words, the opcode word first, then operand 1, then operand 2 (R90). -/

namespace Sys2Proof

/-- What an opcode word calls for: a complete instruction, or the operand words that still have to be
read, in ascending address order (30_encoding.md R92). -/
inductive Shape where
  | words1 (i : Instr)
  | words2 (build : Word → Instr)
  | words3 (build : Word → Word → Instr)

/-- The number of operand words (30_encoding.md R92). -/
def Shape.operandCount : Shape → Nat
  | .words1 _ => 0
  | .words2 _ => 1
  | .words3 _ => 2

/-- The opcode map (30_encoding.md R97). The whole word is the opcode (R95), and every word outside the
table is a one-word unknown opcode (R99, R100). -/
def shapeOf (op : Word) : Shape :=
  match op.toNat with
  | 0x00 => .words1 .nop
  | 0x01 => .words2 .intL
  | 0x02 => .words2 .intR
  | 0x03 => .words3 .movRl
  | 0x04 => .words3 .movRr
  | 0x07 => .words3 .compLl
  | 0x08 => .words3 .compRl
  | 0x09 => .words3 .compRr
  | 0x0A => .words2 .jeqL
  | 0x0B => .words2 .jeqR
  | 0x0C => .words2 .jltL
  | 0x0D => .words2 .jltR
  | 0x0E => .words2 .jgtL
  | 0x0F => .words2 .jgtR
  | 0x10 => .words2 .jneqL
  | 0x11 => .words2 .jneqR
  | 0x12 => .words3 .addRl
  | 0x13 => .words3 .addRr
  | 0x14 => .words3 .subRl
  | 0x15 => .words3 .subRr
  | 0x16 => .words3 .mulRl
  | 0x17 => .words3 .mulRr
  | 0x18 => .words3 .divRl
  | 0x19 => .words3 .divRr
  | 0x1A => .words3 .powRl
  | 0x1B => .words3 .powRr
  | 0x1C => .words3 .andRl
  | 0x1D => .words3 .andRr
  | 0x1E => .words3 .orRl
  | 0x1F => .words3 .orRr
  | 0x20 => .words3 .norRl
  | 0x21 => .words3 .norRr
  | 0x22 => .words3 .xorRl
  | 0x23 => .words3 .xorRr
  | 0x24 => .words2 .notR
  | 0x25 => .words1 .halt
  | 0x26 => .words3 .lshiftRl
  | 0x27 => .words3 .lshiftRr
  | 0x2A => .words3 .rshiftRl
  | 0x2B => .words3 .rshiftRr
  | 0x2E => .words2 .jgteqL
  | 0x2F => .words2 .jgteqR
  | 0x30 => .words2 .jlteqL
  | 0x31 => .words2 .jlteqR
  | 0x32 => .words3 .lshiftCarryRl
  | 0x33 => .words3 .lshiftCarryRr
  | 0x36 => .words3 .rshiftCarryRl
  | 0x37 => .words3 .rshiftCarryRr
  | 0x3A => .words2 .jmpL
  | 0x3B => .words2 .jmpR
  | 0x3C => .words2 .callL
  | 0x3D => .words2 .callR
  | 0x3E => .words1 .ret
  | 0x40 => .words3 .ldmRl
  | 0x41 => .words3 .ldmRr
  | 0x42 => .words3 .svmRl
  | 0x43 => .words3 .svmRr
  | 0x44 => .words3 .svmLl
  | 0x45 => .words3 .svmLr
  | _ => .words1 (.unknown op)

/-- Why a list of words is no instruction: it ends too early. No opcode word is rejected (R99). -/
inductive DecodeError where
  /-- There is no opcode word. -/
  | noOpcodeWord
  /-- Operand word 1 is missing. -/
  | noOperand1
  /-- Operand word 2 is missing. -/
  | noOperand2
  deriving DecidableEq, Repr

/-- Read one instruction from the front of a list of words; also answers the words after it
(30_encoding.md R90, R92). -/
def decode : List Word → Except DecodeError (Instr × List Word)
  | [] => .error .noOpcodeWord
  | op :: rest =>
    match shapeOf op, rest with
    | .words1 i, ws => .ok (i, ws)
    | .words2 _, [] => .error .noOperand1
    | .words2 k, a :: ws => .ok (k a, ws)
    | .words3 _, [] => .error .noOperand1
    | .words3 _, [_] => .error .noOperand2
    | .words3 k, a :: b :: ws => .ok (k a b, ws)

/-- Words `0`, `1` and `2` of the number `w`, word 0 being bits 31..0. -/
def tableWords (w : Nat) : List Word :=
  [BitVec.ofNat 32 w, BitVec.ofNat 32 (w >>> 32), BitVec.ofNat 32 (w >>> 64)]

/-- The instruction the decoder reads from the `nbits` low bits of `w`, every later bit being 0: three
whole words, the longest instruction (30_encoding.md R90). -/
def decodeTableWord (nbits w : Nat) : Option Instr :=
  match decode (tableWords (w % 2 ^ nbits)) with
  | .ok (i, _) => some i
  | .error _ => none

/-- The words of an instruction, from the same table (30_encoding.md R90, R97). -/
def encode : Instr → List Word
  | .nop => [0x00]
  | .intL a => [0x01, a]
  | .intR a => [0x02, a]
  | .movRl a b => [0x03, a, b]
  | .movRr a b => [0x04, a, b]
  | .compLl a b => [0x07, a, b]
  | .compRl a b => [0x08, a, b]
  | .compRr a b => [0x09, a, b]
  | .jeqL a => [0x0A, a]
  | .jeqR a => [0x0B, a]
  | .jltL a => [0x0C, a]
  | .jltR a => [0x0D, a]
  | .jgtL a => [0x0E, a]
  | .jgtR a => [0x0F, a]
  | .jneqL a => [0x10, a]
  | .jneqR a => [0x11, a]
  | .addRl a b => [0x12, a, b]
  | .addRr a b => [0x13, a, b]
  | .subRl a b => [0x14, a, b]
  | .subRr a b => [0x15, a, b]
  | .mulRl a b => [0x16, a, b]
  | .mulRr a b => [0x17, a, b]
  | .divRl a b => [0x18, a, b]
  | .divRr a b => [0x19, a, b]
  | .powRl a b => [0x1A, a, b]
  | .powRr a b => [0x1B, a, b]
  | .andRl a b => [0x1C, a, b]
  | .andRr a b => [0x1D, a, b]
  | .orRl a b => [0x1E, a, b]
  | .orRr a b => [0x1F, a, b]
  | .norRl a b => [0x20, a, b]
  | .norRr a b => [0x21, a, b]
  | .xorRl a b => [0x22, a, b]
  | .xorRr a b => [0x23, a, b]
  | .notR a => [0x24, a]
  | .halt => [0x25]
  | .lshiftRl a b => [0x26, a, b]
  | .lshiftRr a b => [0x27, a, b]
  | .rshiftRl a b => [0x2A, a, b]
  | .rshiftRr a b => [0x2B, a, b]
  | .jgteqL a => [0x2E, a]
  | .jgteqR a => [0x2F, a]
  | .jlteqL a => [0x30, a]
  | .jlteqR a => [0x31, a]
  | .lshiftCarryRl a b => [0x32, a, b]
  | .lshiftCarryRr a b => [0x33, a, b]
  | .rshiftCarryRl a b => [0x36, a, b]
  | .rshiftCarryRr a b => [0x37, a, b]
  | .jmpL a => [0x3A, a]
  | .jmpR a => [0x3B, a]
  | .callL a => [0x3C, a]
  | .callR a => [0x3D, a]
  | .ret => [0x3E]
  | .ldmRl a b => [0x40, a, b]
  | .ldmRr a b => [0x41, a, b]
  | .svmRl a b => [0x42, a, b]
  | .svmRr a b => [0x43, a, b]
  | .svmLl a b => [0x44, a, b]
  | .svmLr a b => [0x45, a, b]
  | .unknown w => [w]

end Sys2Proof
end

