-- ==== Sys2Proof/Machine/State.lean ====
section
/-! DEFINITION. The state of the machine (10_state.md R20), as plain data, and its value after reset
(10_state.md R50 to R53). -/

namespace Sys2Proof.Machine

/-- Why a step stops the machine with a fault: there is no such reason, so the type is empty. The spec's
faults (60_exceptions.md R260) do not stop the machine; a Core TAKES them (R262) and the step answers a
next state (log 11). No meaning can raise one, which is safe. -/
inductive Fault where
  deriving DecidableEq, Repr

/-- Why a step is refused. -/
inductive Refusal where
  /-- Raised by the dispatch alone, for an instruction that has no meaning yet. Safe: nothing can be
  proved of a run through it. -/
  | notModelled (mnemonic : String)
  /-- Raised by `step` in a configuration outside the constraints of 00_scope.md R7, which a model refuses
  (70_reset_and_hazards.md R302). Safe. -/
  | invalidConfiguration
  /-- Raised by the host action `bootup` when it was done before since reset (70_reset_and_hazards.md R306,
  93_implementation_defined.md U19). Safe. -/
  | secondBootup
  /-- Raised by a host action on a Core number that is not below `NCORES`, which the spec does not offer
  (00_scope.md R9). Safe. -/
  | noSuchCore
  deriving DecidableEq, Repr

/-- The cause of a Core's fault: code 1 with its kind, or code 2 (60_exceptions.md R260). -/
inductive FaultCause where
  | addressOutOfRangeMemory
  | addressOutOfRangeRegister
  | divideByZero
  deriving DecidableEq, Repr

/-- A fault as it is raised: its cause and the value recorded in `info` (60_exceptions.md R260). -/
structure FaultSignal where
  cause : FaultCause
  info : Word
  deriving DecidableEq, Repr

/-- The sticky fault record of a Core (60_exceptions.md R263). -/
structure FaultRecord where
  cause : FaultCause
  info : Word
  address : Word
  deriving DecidableEq, Repr

/-- Everything a Core owns (10_state.md R20): its alive flag, its 22 core-local registers, its 13 protected
registers in slot order (R38), its fault record. -/
structure CoreState where
  alive : Bool
  flags : Word
  pc : Word
  sp : Word
  bp : Word
  si : Word
  di : Word
  g : Vector Word 16
  p : Vector Word 13
  fault : Option FaultRecord
  deriving DecidableEq, Repr

/-- One Bus: its devices in mount order and its scratch word (20_memory.md R70). -/
structure BusState where
  devices : List Device
  busValue : Word
  deriving DecidableEq, Repr

/-- Which of the CPU's two Buses (20_memory.md R70). -/
inductive BusId where
  | north
  | south
  deriving DecidableEq, Repr

/-- One `setPixel` request on the display port (60_exceptions.md R276). -/
structure PixelRequest where
  x : Word
  y : Word
  r : Word
  g : Word
  b : Word
  deriving DecidableEq, Repr

/-- What the outside world can do to the block: the inputs of 00_scope.md R9 (reset apart), the Bus
operations of an external master (20_memory.md R74), and the test bench's use of `ALU.load`
(40_alu_unit.md R139). The last three answer their caller in `State.hostReport` (log 13). -/
inductive HostAction where
  | bootup
  | tick
  | activate (core : Nat)
  | busRead (bus : BusId) (addr : Word)
  | busWrite (bus : BusId) (addr value : Word)
  | aluLoad1 (core : Nat) (a : Word)
  | aluLoad2 (core : Nat) (a b : Word)
  deriving DecidableEq, Repr

/-- What the last Bus or ALU call answered its caller (20_memory.md R71, R75; 40_alu_unit.md R138). -/
inductive HostReport where
  /-- No such call was made since reset. -/
  | none
  /-- It succeeded and has no result. -/
  | done
  /-- `Bus.read` returned this word. -/
  | value (v : Word)
  /-- It failed with `AddressOutOfRange(kind = device)` (R75). -/
  | deviceOutOfRange (addr : Word)
  /-- It failed with `DivideByZero` (R138). -/
  | divideByZero (info : Word)
  deriving DecidableEq, Repr

/-- One word of RAM at its word address. The word is the smallest unit of this hardware
(20_memory.md R80; log 7). -/
abbrev MemCell := Nat × Word

/-- RAM: the words that differ from the reset content 0 (10_state.md R51), by rising word address. -/
abbrev Memory := List MemCell

/-- What a RAM word that is not listed reads as: the content of "empty RAM" (10_state.md R51, decision
D25; log 6). -/
def unlistedWord : Word := 0

/-- The canonical form of a memory: word addresses strictly rising, and no entry that equals what an
unlisted address reads as. -/
def Memory.wf : Memory → Bool
  | [] => true
  | [(_, v)] => v != unlistedWord
  | (a, v) :: (b, w) :: rest => v != unlistedWord && decide (a < b) && Memory.wf ((b, w) :: rest)

/-- The whole state. The Cores are the core list `coresBefore ++ core :: coresAfter` (60_exceptions.md
R283): `coresBefore` had their turn in this tick, `core` has the turn now, `coresAfter` wait for theirs.
`coresBefore = []` means that no tick is under way (log 3). `host`, `hostReport` and `booted` are the
model's own fields (logs 2, 13, 14); `ramCapacity`, `disk` and `arithViaLoad` are parameters that no
step changes (10_state.md R21). -/
structure State where
  cpuAlive : Bool
  cflags : Word
  shared : Vector Word 4
  ram : Memory
  ramCapacity : Nat
  disk : List Word
  north : BusState
  south : BusState
  coresBefore : List CoreState
  core : CoreState
  coresAfter : List CoreState
  arithViaLoad : Bool
  pixels : List PixelRequest
  displayInputs : List DisplaySize
  host : List HostAction
  hostReport : HostReport
  booted : Bool
  deriving DecidableEq, Repr

/-- A Core right after reset in a RAM of the given capacity: dead, `PC = 0`, `SP = BP = RAM_CAPACITY`, no
fault, and every other register at the value `RESET_REGS` supplies (10_state.md R50, R52, R53). -/
def coreReset (ramCapacity : Nat) (r : CoreResetRegs) : CoreState :=
  { alive := false
    flags := r.flags
    pc := 0
    sp := BitVec.ofNat 32 ramCapacity
    bp := BitVec.ofNat 32 ramCapacity
    si := r.si
    di := r.di
    g := r.g
    p := r.p
    fault := none }

/-- The machine right after reset in any configuration (10_state.md R53, 70_reset_and_hazards.md R300).
The host has still to call `bootup` (R303; log 2). -/
def State.resetOf (cfg : Config) : State :=
  { cpuAlive := false
    cflags := cfg.cflags
    shared := cfg.shared
    ram := []
    ramCapacity := cfg.ramCapacity
    disk := cfg.disk
    north := { devices := cfg.northDevices, busValue := cfg.northBusValue }
    south := { devices := cfg.southDevices, busValue := cfg.southBusValue }
    coresBefore := []
    core := coreReset cfg.ramCapacity cfg.core0
    coresAfter := cfg.otherCores.map (coreReset cfg.ramCapacity)
    arithViaLoad := cfg.arithViaLoad
    pixels := []
    displayInputs := cfg.displayInputs
    host := [.bootup]
    hostReport := .none
    booted := false }

/-- The machine right after reset, in the configuration of log 5. -/
def State.reset : State :=
  State.resetOf defaultConfig

end Sys2Proof.Machine
end

