-- ==== Sys2Proof/Machine/Flags.lean ====
section
/-! DEFINITION. The flag controller (10_state.md R34, R35), the two compares (40_alu_unit.md R134, R135)
and the conditions the jumps test (46_control.md R213 to R224). -/

namespace Sys2Proof.Machine

/-- The named bits of a flag register (10_state.md R34). -/
inductive Flag where
  | equal
  | greaterThan
  | lessThan
  | carry
  | negative
  | zero
  | overflow
  | twoCompared
  deriving DecidableEq, Repr

/-- The bit number of a flag (10_state.md R34). -/
def flagBit : Flag → Nat
  | .equal => 0
  | .greaterThan => 1
  | .lessThan => 2
  | .carry => 3
  | .negative => 4
  | .zero => 5
  | .overflow => 6
  | .twoCompared => 7

/-- `setFlag(n)` on a flag register (10_state.md R35). -/
def setFlag (f : Flag) (reg : Word) : Word :=
  reg ||| (1#32 <<< flagBit f)

/-- `clearFlag(n)` (10_state.md R35). -/
def clearFlag (f : Flag) (reg : Word) : Word :=
  reg &&& ~~~(1#32 <<< flagBit f)

/-- `getFlag(n)` (10_state.md R35). -/
def getFlag (f : Flag) (reg : Word) : Bool :=
  reg.getLsbD (flagBit f)

/-- `clearAllFlags`: all 32 bits (10_state.md R35, decision D35). -/
def clearAllFlags (_reg : Word) : Word := 0

/-- Set the flag when the condition holds. -/
def setFlagIf (cond : Bool) (f : Flag) (reg : Word) : Word :=
  if cond then setFlag f reg else reg

/-- `compare(a)`: the new flag register (40_alu_unit.md R134). -/
def compareOne (reg a : Word) : Word :=
  let reg := clearAllFlags reg
  if a.msb then setFlag .negative reg
  else if a = 0 then setFlag .zero reg
  else reg

/-- `compare(a, b)`: the new flag register (40_alu_unit.md R135). The comparison is unsigned, and
`GREATER_THAN` means that the first operand is the greater (decision D9). -/
def compareTwo (reg a b : Word) : Word :=
  let reg := clearAllFlags reg
  let reg := setFlag .twoCompared reg
  let reg := setFlagIf (a.msb || b.msb) .negative reg
  let reg := setFlagIf (a == 0 || b == 0) .zero reg
  if a = b then setFlag .equal reg
  else if b < a then setFlag .greaterThan reg
  else setFlag .lessThan reg

/-- The condition of `JEQ` (46_control.md R213). -/
def condEq (flags : Word) : Bool := getFlag .equal flags

/-- The condition of `JLT` (46_control.md R215). -/
def condLt (flags : Word) : Bool := getFlag .lessThan flags

/-- The condition of `JGT` (46_control.md R217). -/
def condGt (flags : Word) : Bool := getFlag .greaterThan flags

/-- The condition of `JNEQ` (46_control.md R219): `EQUAL` is absent. -/
def condNeq (flags : Word) : Bool := !getFlag .equal flags

/-- The condition of `JGTEQ` (46_control.md R221). -/
def condGteq (flags : Word) : Bool := getFlag .greaterThan flags || getFlag .equal flags

/-- The condition of `JLTEQ` (46_control.md R223). -/
def condLteq (flags : Word) : Bool := getFlag .lessThan flags || getFlag .equal flags

end Sys2Proof.Machine
end

