-- ==== Sys2Proof/Machine/Alu.lean ====
section
/-! DEFINITION. The ALU unit: its primitives, which are pure (40_alu_unit.md R120 to R133), and the load
protocol over the executing Core's flags and protected registers (R136 to R139). -/

namespace Sys2Proof.Machine

/-- `add` (40_alu_unit.md R121). -/
def aluAdd (a b : Word) : Word := a + b

/-- `sub` (40_alu_unit.md R122). -/
def aluSub (a b : Word) : Word := a - b

/-- `mul` (40_alu_unit.md R123). -/
def aluMul (a b : Word) : Word := a * b

/-- `div_f`: the pair (quotient, remainder) (40_alu_unit.md R124). -/
def divF (a b : Word) : Except FaultSignal (Word × Word) :=
  if b = 0 then .error { cause := .divideByZero, info := a }
  else
    let remainder := a % b
    .ok ((a - remainder) / b, remainder)

/-- `and` (40_alu_unit.md R125). -/
def aluAnd (a b : Word) : Word := a &&& b

/-- `or` (40_alu_unit.md R126). -/
def aluOr (a b : Word) : Word := a ||| b

/-- `not` (40_alu_unit.md R127). -/
def aluNot (a : Word) : Word := ~~~a

/-- `nor` (40_alu_unit.md R128). -/
def aluNor (a b : Word) : Word := ~~~a &&& ~~~b

/-- `pow`, which is exclusive or and not exponentiation (40_alu_unit.md R129). -/
def aluPow (a b : Word) : Word := a ^^^ b

/-- `xor`, by its De Morgan construction (40_alu_unit.md R130). -/
def aluXor (a b : Word) : Word := (a ||| b) &&& ~~~(a &&& b)

/-- `lshift` (40_alu_unit.md R131). A count of 32 or more gives the free value `SHIFT_OVER`
(45_shift.md R197; log 8). -/
def lshift (a n : Word) : Word :=
  if n.toNat < 32 then a <<< n.toNat else shiftOver .left a n

/-- `rshift`, logical (40_alu_unit.md R132). A count of 32 or more gives the free value `SHIFT_OVER`
(45_shift.md R197; log 8). -/
def rshift (a n : Word) : Word :=
  if n.toNat < 32 then a >>> n.toNat else shiftOver .right a n

/-- `lshift_carry`: no carry is read or produced (40_alu_unit.md R133). -/
def lshiftCarry (a n : Word) : Word := lshift a n

/-- `rshift_carry`: no carry is read or produced (40_alu_unit.md R133). -/
def rshiftCarry (a n : Word) : Word := rshift a n

/-- The protected-register slots (10_state.md R38). -/
inductive Slot where
  | add
  | subtract
  | multiply
  | divide
  | remainder
  | power
  | modulo
  | and
  | or
  | nor
  | xor
  | notA
  | notB
  deriving DecidableEq, Repr

/-- The slot's number (10_state.md R38, decision D14). -/
def slotIndex : Slot → Fin 13
  | .add => 0
  | .subtract => 1
  | .multiply => 2
  | .divide => 3
  | .remainder => 4
  | .power => 5
  | .modulo => 6
  | .and => 7
  | .or => 8
  | .nor => 9
  | .xor => 10
  | .notA => 11
  | .notB => 12

/-- A Core's protected register in a slot. -/
def getSlot (c : CoreState) (k : Slot) : Word := c.p[slotIndex k]

/-- The cache after a load of `(a, b)` whose divide gave `(q, r)`: twelve slots are written and `MODULO`
keeps its value (40_alu_unit.md R137). -/
def cachedResults (p : Vector Word 13) (a b q r : Word) : Vector Word 13 :=
  #v[aluAdd a b, aluSub a b, aluMul a b, q, r, aluPow a b, p[6], aluAnd a b, aluOr a b, aluNor a b,
    aluXor a b, aluNot a, aluNot b]

/-- `load(a, b)` on a Core: all or nothing (40_alu_unit.md R137, R138). -/
def loadTwo (c : CoreState) (a b : Word) : Except FaultSignal CoreState :=
  match divF a b with
  | .error f => .error f
  | .ok (q, r) =>
    .ok { c with flags := compareTwo c.flags a b, p := cachedResults c.p a b q r }

/-- `load(a)` on a Core: the pair is `(a, 0xFFFFFFFF)` and the compare is the one-operand one
(40_alu_unit.md R136). -/
def loadOne (c : CoreState) (a : Word) : Except FaultSignal CoreState :=
  match divF a 0xFFFFFFFF with
  | .error f => .error f
  | .ok (q, r) =>
    .ok { c with flags := compareOne c.flags a, p := cachedResults c.p a 0xFFFFFFFF q r }

/-- The nine two-operand operations of the opcodes 0x12 to 0x23 (44_arith_logic.md R170). -/
inductive AluOp where
  | add
  | sub
  | mul
  | div
  | pow
  | and
  | or
  | nor
  | xor
  deriving DecidableEq, Repr

/-- `op(a, b)`. Of the pair that the divide gives, the quotient (44_arith_logic.md R170, R177). -/
def aluDirect (op : AluOp) (a b : Word) : Except FaultSignal Word :=
  match op with
  | .add => .ok (aluAdd a b)
  | .sub => .ok (aluSub a b)
  | .mul => .ok (aluMul a b)
  | .div =>
    match divF a b with
    | .error f => .error f
    | .ok (q, _) => .ok q
  | .pow => .ok (aluPow a b)
  | .and => .ok (aluAnd a b)
  | .or => .ok (aluOr a b)
  | .nor => .ok (aluNor a b)
  | .xor => .ok (aluXor a b)

/-- The slot that holds the operation's result after a load (40_alu_unit.md R139). -/
def aluSlot : AluOp → Slot
  | .add => .add
  | .sub => .subtract
  | .mul => .multiply
  | .div => .divide
  | .pow => .power
  | .and => .and
  | .or => .or
  | .nor => .nor
  | .xor => .xor

/-- What an arithmetic opcode computes for `(a, b)`, and the executing Core after it: the ALU operation
itself, or the load protocol when `ARITH_VIA_LOAD` is set (40_alu_unit.md R139; log 12). -/
def aluCompute (viaLoad : Bool) (op : AluOp) (c : CoreState) (a b : Word) :
    Except FaultSignal (CoreState × Word) :=
  if viaLoad then
    match loadTwo c a b with
    | .error f => .error f
    | .ok c' => .ok (c', getSlot c' (aluSlot op))
  else
    match aluDirect op a b with
    | .error f => .error f
    | .ok v => .ok (c, v)

/-- What `NOT_R` computes, and the executing Core after it (44_arith_logic.md R189, 40_alu_unit.md R139). -/
def aluComputeNot (viaLoad : Bool) (c : CoreState) (a : Word) :
    Except FaultSignal (CoreState × Word) :=
  if viaLoad then
    match loadOne c a with
    | .error f => .error f
    | .ok c' => .ok (c', getSlot c' .notA)
  else .ok (c, aluNot a)

end Sys2Proof.Machine
end

