-- ==== Sys2Proof/Machine/Ops.lean ====
section
/-! DEFINITION. The named operations over memory, registers and alive flags that the meanings share:
RAM (20_memory.md R60 to R64), the unified register space (10_state.md R22 to R28), taking a fault
(60_exceptions.md R262), the write-back (30_encoding.md R104), the stack (46_control.md R210, R211). -/

namespace Sys2Proof.Machine

/-- What a meaning answers. -/
abbrev Result := Host.Outcome State Fault Refusal

/-! ### Words of a memory -/

/-- The word at a word address of RAM (20_memory.md R61). -/
def readWord : Memory → Nat → Word
  | [], _ => unlistedWord
  | (b, w) :: rest, a => if b = a then w else readWord rest a

/-- RAM with the whole word at a word address replaced (20_memory.md R61), in canonical form. -/
def writeWord : Memory → Nat → Word → Memory
  | [], a, v => if v = unlistedWord then [] else [(a, v)]
  | (b, w) :: rest, a, v =>
    if a < b then
      if v = unlistedWord then (b, w) :: rest else (a, v) :: (b, w) :: rest
    else if a = b then
      if v = unlistedWord then rest else (a, v) :: rest
    else (b, w) :: writeWord rest a v

/-- RAM with the words `vs` written from word address `a` upward. -/
def writeWords : Memory → Nat → List Word → Memory
  | m, _, [] => m
  | m, a, v :: vs => writeWords (writeWord m a v) (a + 1) vs

/-- `MemRead(addr, 1)` (20_memory.md R62). -/
def memRead (s : State) (addr : Word) : Except FaultSignal Word :=
  if s.ramCapacity ≤ addr.toNat then .error { cause := .addressOutOfRangeMemory, info := addr }
  else .ok (readWord s.ram addr.toNat)

/-- `MemWrite(addr, 1, v)` (20_memory.md R63). -/
def memWrite (s : State) (addr v : Word) : Except FaultSignal State :=
  if s.ramCapacity ≤ addr.toNat then .error { cause := .addressOutOfRangeMemory, info := addr }
  else .ok { s with ram := writeWord s.ram addr.toNat v }

/-! ### Registers -/

/-- The register address map: the register at each address from 0x00 to 0x1A (10_state.md R22). -/
def registerMap : List Reg :=
  [.cflags, .flags, .pc, .sp, .bp, .si, .di,
    .g 0, .g 1, .g 2, .g 3, .g 4, .g 5, .g 6, .g 7, .g 8, .g 9, .g 10, .g 11, .g 12, .g 13, .g 14, .g 15,
    .s 0, .s 1, .s 2, .s 3]

/-- The register a register-address word names, if it names one; all 32 bits count
(10_state.md R22, R28). -/
def regOfWord (a : Word) : Option Reg :=
  registerMap[a.toNat]?

/-- The register of a register operand, or the fault of an address above 0x1A (10_state.md R28,
30_encoding.md R103). -/
def resolveReg (a : Word) : Except FaultSignal Reg :=
  match regOfWord a with
  | some r => .ok r
  | none => .error { cause := .addressOutOfRangeRegister, info := a }

/-- Register read by the executing Core (10_state.md R24). Within an instruction `PC` reads as the
instruction's own address (R30). -/
def getReg (s : State) : Reg → Word
  | .cflags => s.cflags
  | .flags => s.core.flags
  | .pc => s.core.pc
  | .sp => s.core.sp
  | .bp => s.core.bp
  | .si => s.core.si
  | .di => s.core.di
  | .g k => s.core.g[k]
  | .s k => s.shared[k]

/-- Register write by the executing Core: the whole word of the one slot (10_state.md R25). -/
def setReg (s : State) (r : Reg) (v : Word) : State :=
  match r with
  | .cflags => { s with cflags := v }
  | .flags => { s with core := { s.core with flags := v } }
  | .pc => { s with core := { s.core with pc := v } }
  | .sp => { s with core := { s.core with sp := v } }
  | .bp => { s with core := { s.core with bp := v } }
  | .si => { s with core := { s.core with si := v } }
  | .di => { s with core := { s.core with di := v } }
  | .g k => { s with core := { s.core with g := s.core.g.set k v } }
  | .s k => { s with shared := s.shared.set k v }

/-! ### Taking a fault; ending an instruction -/

/-- Taking a fault (60_exceptions.md R262, R263): the record is set if there was none, the Core dies, and
nothing else changes. `PC` still holds the address of the faulting instruction. There is no handler and
no return from a fault (R267). -/
def takeFault (s : State) (f : FaultSignal) : State :=
  let record : FaultRecord := { cause := f.cause, info := f.info, address := s.core.pc }
  { s with core := { s.core with
      alive := false
      fault := match s.core.fault with
        | none => some record
        | some old => some old } }

/-- Go on with the value of an operation that may raise; if it raises, `s`, the state before the
instruction, takes the fault (60_exceptions.md R262, R264). -/
def orFault {α : Type} (s : State) (x : Except FaultSignal α) (k : α → Result) : Result :=
  match x with
  | .ok a => k a
  | .error f => .next (takeFault s f)

/-- The write-back `PC <- next` (30_encoding.md R104). -/
def writeBack (s : State) (next : Word) : State :=
  { s with core := { s.core with pc := next } }

/-- The end of an instruction at `address` that does not transfer control: the write-back of
`address + operand_count + 1`, which also overwrites a written `PC` (30_encoding.md R101, R104;
10_state.md R30). -/
def retire (address words : Word) (s : State) : Result :=
  .next (writeBack s (address + words))

/-- The end of an instruction that transfers control (30_encoding.md R101, R104). -/
def jumpTo (target : Word) (s : State) : Result :=
  .next (writeBack s target)

/-! ### The stack -/

/-- `stack_push(v)` (46_control.md R210). -/
def stackPush (s : State) (v : Word) : Except FaultSignal State :=
  match memWrite s s.core.sp v with
  | .error f => .error f
  | .ok s' => .ok { s' with core := { s'.core with sp := s'.core.sp - 1 } }

/-- `stack_pop()`: the popped word and the state after (46_control.md R211). -/
def stackPop (s : State) : Except FaultSignal (Word × State) :=
  if s.core.bp ≤ s.core.sp then .ok (0, s)
  else
    match memRead s (s.core.sp + 1) with
    | .error f => .error f
    | .ok v => .ok (v, { s with core := { s.core with sp := s.core.sp + 1 } })

/-! ### Alive flags -/

/-- A Core with its alive flag cleared. -/
def killCore (c : CoreState) : CoreState := { c with alive := false }

/-- `call_halt()`: every Core's alive flag and the CPU's are cleared (60_exceptions.md R287). -/
def callHalt (s : State) : State :=
  { s with
    cpuAlive := false
    coresBefore := s.coresBefore.map killCore
    core := killCore s.core
    coresAfter := s.coresAfter.map killCore }

/-- The Cores in core-list order (60_exceptions.md R283). -/
def coreList (s : State) : List CoreState :=
  s.coresBefore ++ s.core :: s.coresAfter

end Sys2Proof.Machine
end

