-- ==== Sys2Proof/Machine/Bus.lean ====
section
/-! DEFINITION. The two Buses and their mounted devices (20_memory.md R67 to R75). No instruction drives a
Bus (R74); an external master does. -/

namespace Sys2Proof.Machine

/-- The device's range contains the address, both ends included (20_memory.md R67, decision D26). -/
def claims (d : Device) (addr : Word) : Bool :=
  decide (d.floor ≤ addr) && decide (addr ≤ d.ceil)

/-- `localIndex = busAddress - floor` (20_memory.md R67). -/
def localIndex (d : Device) (addr : Word) : Nat :=
  (addr - d.floor).toNat

/-- The broadcast of a read over the devices in mount order: the scratch word after it, and whether a
device failed, which ends the broadcast (20_memory.md R68, R71, R75). -/
def broadcastRead : List Device → Word → Word → Word × Bool
  | [], _, busValue => (busValue, false)
  | d :: ds, addr, busValue =>
    if claims d addr then
      match d.mem[localIndex d addr]? with
      | some v => broadcastRead ds addr v
      | none => (busValue, true)
    else broadcastRead ds addr busValue

/-- The broadcast of a write over the devices in mount order: the devices after it, and whether a device
failed, which ends the broadcast; devices earlier in mount order keep what they stored
(20_memory.md R69, R72, R75). -/
def broadcastWrite : List Device → Word → Word → List Device × Bool
  | [], _, _ => ([], false)
  | d :: ds, addr, v =>
    if claims d addr then
      if localIndex d addr < d.mem.length then
        let (ds', failed) := broadcastWrite ds addr v
        ({ d with mem := d.mem.set (localIndex d addr) v } :: ds', failed)
      else (d :: ds, true)
    else
      let (ds', failed) := broadcastWrite ds addr v
      (d :: ds', failed)

/-- `Bus.read(A)` on one Bus, and what it answers its caller (20_memory.md R71, R75). -/
def busReadOn (bus : BusState) (addr : Word) : BusState × HostReport :=
  let (v, failed) := broadcastRead bus.devices addr bus.busValue
  ({ bus with busValue := v }, if failed then .deviceOutOfRange addr else .value v)

/-- `Bus.write(A, v)` on one Bus, and what it answers its caller (20_memory.md R72, R75). -/
def busWriteOn (bus : BusState) (addr v : Word) : BusState × HostReport :=
  let (ds, failed) := broadcastWrite bus.devices addr v
  ({ bus with devices := ds }, if failed then .deviceOutOfRange addr else .done)

/-- The Bus of a name (20_memory.md R70). -/
def getBus (s : State) : BusId → BusState
  | .north => s.north
  | .south => s.south

/-- Replace one Bus; the other is not touched (20_memory.md R70). -/
def setBus (s : State) (b : BusId) (bus : BusState) : State :=
  match b with
  | .north => { s with north := bus }
  | .south => { s with south := bus }

/-- `Bus.read(A)` by an external master (20_memory.md R71). -/
def busRead (b : BusId) (addr : Word) (s : State) : State :=
  let (bus, report) := busReadOn (getBus s b) addr
  { setBus s b bus with hostReport := report }

/-- `Bus.write(A, v)` by an external master (20_memory.md R72). -/
def busWrite (b : BusId) (addr v : Word) (s : State) : State :=
  let (bus, report) := busWriteOn (getBus s b) addr v
  { setBus s b bus with hostReport := report }

end Sys2Proof.Machine
end

