-- ==== Sys2Proof/Machine/Operands.lean ====
section
/-! DEFINITION. The operand forms (30_encoding.md R91, R103): which operand words are register addresses,
validated in operand order before anything is read, and the shared skeletons of the instruction families
over them. -/

namespace Sys2Proof.Machine

/-- One register operand (format `F1R`, and the register of `F2RL` and `F2LR`): validate it and go on with
the register. -/
def withReg (s : State) (w : Word) (k : Reg → Result) : Result :=
  orFault s (resolveReg w) k

/-- Two register operands (format `F2RR`): operand 1 is validated first (30_encoding.md R103). -/
def withRegs (s : State) (w1 w2 : Word) (k : Reg → Reg → Result) : Result :=
  withReg s w1 fun r1 => withReg s w2 fun r2 => k r1 r2

/-- The last part of an arithmetic or logic instruction of three words: compute `op(a, b)`, write the
destination, write back `PC` (44_arith_logic.md R170). -/
def arithInto (op : AluOp) (r : Reg) (a b : Word) (s : State) : Result :=
  orFault s (aluCompute s.arithViaLoad op s.core a b) fun (c, v) =>
    retire s.core.pc 3 (setReg { s with core := c } r v)

/-- Skeleton of the arithmetic and logic `_RL` forms (44_arith_logic.md R170). -/
def arithRl (op : AluOp) (dst operand : Word) (s : State) : Result :=
  withReg s dst fun r => arithInto op r (getReg s r) operand s

/-- Skeleton of the arithmetic and logic `_RR` forms (44_arith_logic.md R170). -/
def arithRr (op : AluOp) (dst operand : Word) (s : State) : Result :=
  withRegs s dst operand fun r q => arithInto op r (getReg s r) (getReg s q) s

/-- Skeleton of the shift `_RL` forms (45_shift.md R195). -/
def shiftRl (shift : Word → Word → Word) (reg count : Word) (s : State) : Result :=
  withReg s reg fun r => retire s.core.pc 3 (setReg s r (shift (getReg s r) count))

/-- Skeleton of the shift `_RR` forms (45_shift.md R195). -/
def shiftRr (shift : Word → Word → Word) (reg count : Word) (s : State) : Result :=
  withRegs s reg count fun r q => retire s.core.pc 3 (setReg s r (shift (getReg s r) (getReg s q)))

/-- The last part of a compare instruction: all of the executing Core's `FLAGS` (43_compare.md R165). -/
def compareInto (a b : Word) (s : State) : Result :=
  retire s.core.pc 3 { s with core := { s.core with flags := compareTwo s.core.flags a b } }

/-- A conditional jump of two words to a target already read (46_control.md R230). -/
def branchTo (cond : Word → Bool) (target : Word) (s : State) : Result :=
  if cond s.core.flags then jumpTo target s else retire s.core.pc 2 s

/-- Skeleton of the conditional `_R` jumps: the register is validated whether or not the jump is taken
(46_control.md R230). -/
def branchThrough (cond : Word → Bool) (target : Word) (s : State) : Result :=
  withReg s target fun r => branchTo cond (getReg s r) s

/-- The last part of `CALL`: push the address after the two words of the call, then jump
(46_control.md R227, R228). -/
def callTo (target : Word) (s : State) : Result :=
  orFault s (stackPush s (s.core.pc + 2)) fun s' => jumpTo target s'

/-- The last part of a load: read RAM, write the destination (47_load_store.md R240). -/
def loadInto (r : Reg) (addr : Word) (s : State) : Result :=
  orFault s (memRead s addr) fun v => retire s.core.pc 3 (setReg s r v)

/-- The last part of a store (47_load_store.md R240). -/
def storeAt (addr v : Word) (s : State) : Result :=
  orFault s (memWrite s addr v) fun s' => retire s.core.pc 3 s'

end Sys2Proof.Machine
end

