-- ==== Sys2Proof/Machine/ArithLogic.lean ====
section
/-! DEFINITION. The arithmetic and logic instructions (44_arith_logic.md). -/

namespace Sys2Proof.Machine

/-- `ADD_RL reg, imm` (44_arith_logic.md R171). -/
def execAddRl (dst operand : Word) (s : State) : Result :=
  arithRl .add dst operand s

/-- `ADD_RR dst, src` (44_arith_logic.md R172). -/
def execAddRr (dst operand : Word) (s : State) : Result :=
  arithRr .add dst operand s

/-- `SUB_RL reg, imm` (44_arith_logic.md R173). -/
def execSubRl (dst operand : Word) (s : State) : Result :=
  arithRl .sub dst operand s

/-- `SUB_RR dst, src` (44_arith_logic.md R174). -/
def execSubRr (dst operand : Word) (s : State) : Result :=
  arithRr .sub dst operand s

/-- `MUL_RL reg, imm` (44_arith_logic.md R175). -/
def execMulRl (dst operand : Word) (s : State) : Result :=
  arithRl .mul dst operand s

/-- `MUL_RR dst, src` (44_arith_logic.md R176). -/
def execMulRr (dst operand : Word) (s : State) : Result :=
  arithRr .mul dst operand s

/-- `DIV_RL reg, imm` (44_arith_logic.md R177). -/
def execDivRl (dst operand : Word) (s : State) : Result :=
  arithRl .div dst operand s

/-- `DIV_RR dst, src` (44_arith_logic.md R178). -/
def execDivRr (dst operand : Word) (s : State) : Result :=
  arithRr .div dst operand s

/-- `POW_RL reg, imm` (44_arith_logic.md R179). -/
def execPowRl (dst operand : Word) (s : State) : Result :=
  arithRl .pow dst operand s

/-- `POW_RR dst, src` (44_arith_logic.md R180). -/
def execPowRr (dst operand : Word) (s : State) : Result :=
  arithRr .pow dst operand s

/-- `AND_RL reg, imm` (44_arith_logic.md R181). -/
def execAndRl (dst operand : Word) (s : State) : Result :=
  arithRl .and dst operand s

/-- `AND_RR dst, src` (44_arith_logic.md R182). -/
def execAndRr (dst operand : Word) (s : State) : Result :=
  arithRr .and dst operand s

/-- `OR_RL reg, imm` (44_arith_logic.md R183). -/
def execOrRl (dst operand : Word) (s : State) : Result :=
  arithRl .or dst operand s

/-- `OR_RR dst, src` (44_arith_logic.md R184). -/
def execOrRr (dst operand : Word) (s : State) : Result :=
  arithRr .or dst operand s

/-- `NOR_RL reg, imm` (44_arith_logic.md R185). -/
def execNorRl (dst operand : Word) (s : State) : Result :=
  arithRl .nor dst operand s

/-- `NOR_RR dst, src` (44_arith_logic.md R186). -/
def execNorRr (dst operand : Word) (s : State) : Result :=
  arithRr .nor dst operand s

/-- `XOR_RL reg, imm` (44_arith_logic.md R187). -/
def execXorRl (dst operand : Word) (s : State) : Result :=
  arithRl .xor dst operand s

/-- `XOR_RR dst, src` (44_arith_logic.md R188). -/
def execXorRr (dst operand : Word) (s : State) : Result :=
  arithRr .xor dst operand s

/-- `NOT_R reg` (44_arith_logic.md R189). -/
def execNotR (reg : Word) (s : State) : Result :=
  withReg s reg fun r =>
    orFault s (aluComputeNot s.arithViaLoad s.core (getReg s r)) fun (c, v) =>
      retire s.core.pc 2 (setReg { s with core := c } r v)

end Sys2Proof.Machine
end

