-- ==== Sys2Proof/Machine/Compare.lean ====
section
/-! DEFINITION. The compare instructions (43_compare.md). -/

namespace Sys2Proof.Machine

/-- `COMP_LL a, b` (43_compare.md R165). -/
def execCompLl (a b : Word) (s : State) : Result :=
  compareInto a b s

/-- `COMP_RL reg, b` (43_compare.md R166). -/
def execCompRl (a b : Word) (s : State) : Result :=
  withReg s a fun r => compareInto (getReg s r) b s

/-- `COMP_RR ra, rb` (43_compare.md R167). -/
def execCompRr (a b : Word) (s : State) : Result :=
  withRegs s a b fun r q => compareInto (getReg s r) (getReg s q) s

end Sys2Proof.Machine
end

