-- ==== Sys2Proof/Machine/Control.lean ====
section
/-! DEFINITION. Control transfer: the jumps, CALL and RET (46_control.md). -/

namespace Sys2Proof.Machine

/-- `JEQ_L target` (46_control.md R213). -/
def execJeqL (target : Word) (s : State) : Result :=
  branchTo condEq target s

/-- `JEQ_R reg` (46_control.md R214). -/
def execJeqR (target : Word) (s : State) : Result :=
  branchThrough condEq target s

/-- `JLT_L target` (46_control.md R215). -/
def execJltL (target : Word) (s : State) : Result :=
  branchTo condLt target s

/-- `JLT_R reg` (46_control.md R216). -/
def execJltR (target : Word) (s : State) : Result :=
  branchThrough condLt target s

/-- `JGT_L target` (46_control.md R217). -/
def execJgtL (target : Word) (s : State) : Result :=
  branchTo condGt target s

/-- `JGT_R reg` (46_control.md R218). -/
def execJgtR (target : Word) (s : State) : Result :=
  branchThrough condGt target s

/-- `JNEQ_L target` (46_control.md R219). -/
def execJneqL (target : Word) (s : State) : Result :=
  branchTo condNeq target s

/-- `JNEQ_R reg` (46_control.md R220). -/
def execJneqR (target : Word) (s : State) : Result :=
  branchThrough condNeq target s

/-- `JGTEQ_L target` (46_control.md R221). -/
def execJgteqL (target : Word) (s : State) : Result :=
  branchTo condGteq target s

/-- `JGTEQ_R reg` (46_control.md R222). -/
def execJgteqR (target : Word) (s : State) : Result :=
  branchThrough condGteq target s

/-- `JLTEQ_L target` (46_control.md R223). -/
def execJlteqL (target : Word) (s : State) : Result :=
  branchTo condLteq target s

/-- `JLTEQ_R reg` (46_control.md R224). -/
def execJlteqR (target : Word) (s : State) : Result :=
  branchThrough condLteq target s

/-- `JMP_L target` (46_control.md R225). -/
def execJmpL (target : Word) (s : State) : Result :=
  jumpTo target s

/-- `JMP_R reg` (46_control.md R226). -/
def execJmpR (target : Word) (s : State) : Result :=
  withReg s target fun r => jumpTo (getReg s r) s

/-- `CALL_L target` (46_control.md R227). -/
def execCallL (target : Word) (s : State) : Result :=
  callTo target s

/-- `CALL_R reg`: the target is read before the push (46_control.md R228, decision D18). -/
def execCallR (target : Word) (s : State) : Result :=
  withReg s target fun r => callTo (getReg s r) s

/-- `RET`: on an empty stack the popped word is 0 (46_control.md R229). -/
def execRet (s : State) : Result :=
  orFault s (stackPop s) fun (v, s') => jumpTo v s'

end Sys2Proof.Machine
end

