-- ==== Sys2Proof/Machine/LoadStore.lean ====
section
/-! DEFINITION. The load and store instructions (47_load_store.md). -/

namespace Sys2Proof.Machine

/-- `LDM_RL dst, addr` (47_load_store.md R241). -/
def execLdmRl (dst addr : Word) (s : State) : Result :=
  withReg s dst fun r => loadInto r addr s

/-- `LDM_RR dst, ra` (47_load_store.md R242). -/
def execLdmRr (dst addr : Word) (s : State) : Result :=
  withRegs s dst addr fun r q => loadInto r (getReg s q) s

/-- `SVM_RL ra, value` (47_load_store.md R243). -/
def execSvmRl (addr value : Word) (s : State) : Result :=
  withReg s addr fun r => storeAt (getReg s r) value s

/-- `SVM_RR ra, rv` (47_load_store.md R244). -/
def execSvmRr (addr value : Word) (s : State) : Result :=
  withRegs s addr value fun r q => storeAt (getReg s r) (getReg s q) s

/-- `SVM_LL addr, value` (47_load_store.md R245). -/
def execSvmLl (addr value : Word) (s : State) : Result :=
  storeAt addr value s

/-- `SVM_LR addr, rv`: the register is validated before the address is checked (47_load_store.md R246). -/
def execSvmLr (addr value : Word) (s : State) : Result :=
  withReg s value fun q => storeAt addr (getReg s q) s

end Sys2Proof.Machine
end

