-- ==== Sys2Proof/Machine/Move.lean ====
section
/-! DEFINITION. The move instructions (42_move.md). -/

namespace Sys2Proof.Machine

/-- `MOV_RL reg, imm` (42_move.md R160). -/
def execMovRl (dst value : Word) (s : State) : Result :=
  withReg s dst fun r => retire s.core.pc 3 (setReg s r value)

/-- `MOV_RR dst, src` (42_move.md R161). -/
def execMovRr (dst src : Word) (s : State) : Result :=
  withRegs s dst src fun r q => retire s.core.pc 3 (setReg s r (getReg s q))

end Sys2Proof.Machine
end

