-- ==== Sys2Proof/Machine/Shift.lean ====
section
/-! DEFINITION. The shift instructions (45_shift.md). -/

namespace Sys2Proof.Machine

/-- `LSHIFT_RL reg, count` (45_shift.md R198). -/
def execLshiftRl (reg count : Word) (s : State) : Result :=
  shiftRl lshift reg count s

/-- `LSHIFT_RR reg, cnt` (45_shift.md R199). -/
def execLshiftRr (reg count : Word) (s : State) : Result :=
  shiftRr lshift reg count s

/-- `RSHIFT_RL reg, count` (45_shift.md R200). -/
def execRshiftRl (reg count : Word) (s : State) : Result :=
  shiftRl rshift reg count s

/-- `RSHIFT_RR reg, cnt` (45_shift.md R201). -/
def execRshiftRr (reg count : Word) (s : State) : Result :=
  shiftRr rshift reg count s

/-- `LSHIFT_CARRY_RL reg, count` (45_shift.md R202). -/
def execLshiftCarryRl (reg count : Word) (s : State) : Result :=
  shiftRl lshiftCarry reg count s

/-- `LSHIFT_CARRY_RR reg, cnt` (45_shift.md R203). -/
def execLshiftCarryRr (reg count : Word) (s : State) : Result :=
  shiftRr lshiftCarry reg count s

/-- `RSHIFT_CARRY_RL reg, count` (45_shift.md R204). -/
def execRshiftCarryRl (reg count : Word) (s : State) : Result :=
  shiftRl rshiftCarry reg count s

/-- `RSHIFT_CARRY_RR reg, cnt` (45_shift.md R205). -/
def execRshiftCarryRr (reg count : Word) (s : State) : Result :=
  shiftRr rshiftCarry reg count s

end Sys2Proof.Machine
end

