-- ==== Sys2Proof/Machine/Interrupt.lean ====
section
/-! DEFINITION. The interrupt dispatch multiplexer and the display handler (60_exceptions.md R270 to R278).
An interrupt is a synchronous call of fixed hardware: nothing is saved, no mode changes, and there is no
return from it (R277). -/

namespace Sys2Proof.Machine

/-- The answer of the display to the next `getWidth` and `getHeight`, and the state after. With no answer
left the display is not initialised and answers 0 (60_exceptions.md R274, R276; log 9). -/
def sampleDisplay (s : State) : DisplaySize × State :=
  match s.displayInputs with
  | [] => ({ width := 0, height := 0 }, s)
  | d :: rest => (d, { s with displayInputs := rest })

/-- Task 0x01: issue the request `setPixel` with the five register values as they are
(60_exceptions.md R273). -/
def setPixelTask (s : State) : State :=
  { s with pixels := s.pixels ++
      [{ x := getReg s (.g 1), y := getReg s (.g 2), r := getReg s (.g 4), g := getReg s (.g 5),
         b := getReg s (.g 6) }] }

/-- Task 0x03: the display's width into `G1`, its height into `G2` (60_exceptions.md R274). -/
def resolutionTask (s : State) : State :=
  let (d, s') := sampleDisplay s
  setReg (setReg s' (.g 1) d.width) (.g 2) d.height

/-- The display handler, vector 0x10: the task code is all of `G0`, and a task code other than 0x01 and
0x03 does nothing (60_exceptions.md R272, R275). -/
def displayHandler (s : State) : State :=
  let task := getReg s (.g 0)
  if task = 0x01 then setPixelTask s
  else if task = 0x03 then resolutionTask s
  else s

/-- `call_interrupt(c, vector)` on the executing Core: a vector other than 0x10 does nothing
(60_exceptions.md R271, R275). -/
def callInterrupt (s : State) (vector : Word) : State :=
  if vector = 0x10 then displayHandler s else s

end Sys2Proof.Machine
end

