-- ==== Sys2Proof/Machine/System.lean ====
section
/-! DEFINITION. The system instructions NOP, INT_L, INT_R, HALT, and the unknown opcodes (41_system.md). -/

namespace Sys2Proof.Machine

/-- `NOP` (41_system.md R150). -/
def execNop (s : State) : Result :=
  retire s.core.pc 1 s

/-- `INT_L vector` (41_system.md R151). -/
def execIntL (vector : Word) (s : State) : Result :=
  retire s.core.pc 2 (callInterrupt s vector)

/-- `INT_R reg` (41_system.md R152). -/
def execIntR (vector : Word) (s : State) : Result :=
  withReg s vector fun r => retire s.core.pc 2 (callInterrupt s (getReg s r))

/-- `HALT` (41_system.md R153): the flags are cleared at once and `PC` is still written back (C3). -/
def execHalt (s : State) : Result :=
  retire s.core.pc 1 (callHalt s)

/-- An unknown opcode is a one-word no-op (41_system.md R154). -/
def execUnknown (_opword : Word) (s : State) : Result :=
  retire s.core.pc 1 s

end Sys2Proof.Machine
end

