-- ==== Sys2Proof/Machine/Dispatch.lean ====
section
/-! DEFINITION. Which meaning each instruction has: one arm per row of spec/opcode_table.json. -/

namespace Sys2Proof.Machine

-- The executing Core is `s.core`; the answer's `PC` is already written back (30_encoding.md R101, R104).
def exec (i : Instr) (s : State) : Host.Outcome State Fault Refusal :=
  match i with
  | .nop => Sys2Proof.Machine.execNop s
  | .intL vector => Sys2Proof.Machine.execIntL vector s
  | .intR vector => Sys2Proof.Machine.execIntR vector s
  | .movRl dst value => Sys2Proof.Machine.execMovRl dst value s
  | .movRr dst src => Sys2Proof.Machine.execMovRr dst src s
  | .compLl a b => Sys2Proof.Machine.execCompLl a b s
  | .compRl a b => Sys2Proof.Machine.execCompRl a b s
  | .compRr a b => Sys2Proof.Machine.execCompRr a b s
  | .jeqL target => Sys2Proof.Machine.execJeqL target s
  | .jeqR target => Sys2Proof.Machine.execJeqR target s
  | .jltL target => Sys2Proof.Machine.execJltL target s
  | .jltR target => Sys2Proof.Machine.execJltR target s
  | .jgtL target => Sys2Proof.Machine.execJgtL target s
  | .jgtR target => Sys2Proof.Machine.execJgtR target s
  | .jneqL target => Sys2Proof.Machine.execJneqL target s
  | .jneqR target => Sys2Proof.Machine.execJneqR target s
  | .addRl dst operand => Sys2Proof.Machine.execAddRl dst operand s
  | .addRr dst operand => Sys2Proof.Machine.execAddRr dst operand s
  | .subRl dst operand => Sys2Proof.Machine.execSubRl dst operand s
  | .subRr dst operand => Sys2Proof.Machine.execSubRr dst operand s
  | .mulRl dst operand => Sys2Proof.Machine.execMulRl dst operand s
  | .mulRr dst operand => Sys2Proof.Machine.execMulRr dst operand s
  | .divRl dst operand => Sys2Proof.Machine.execDivRl dst operand s
  | .divRr dst operand => Sys2Proof.Machine.execDivRr dst operand s
  | .powRl dst operand => Sys2Proof.Machine.execPowRl dst operand s
  | .powRr dst operand => Sys2Proof.Machine.execPowRr dst operand s
  | .andRl dst operand => Sys2Proof.Machine.execAndRl dst operand s
  | .andRr dst operand => Sys2Proof.Machine.execAndRr dst operand s
  | .orRl dst operand => Sys2Proof.Machine.execOrRl dst operand s
  | .orRr dst operand => Sys2Proof.Machine.execOrRr dst operand s
  | .norRl dst operand => Sys2Proof.Machine.execNorRl dst operand s
  | .norRr dst operand => Sys2Proof.Machine.execNorRr dst operand s
  | .xorRl dst operand => Sys2Proof.Machine.execXorRl dst operand s
  | .xorRr dst operand => Sys2Proof.Machine.execXorRr dst operand s
  | .notR reg => Sys2Proof.Machine.execNotR reg s
  | .halt => Sys2Proof.Machine.execHalt s
  | .lshiftRl reg count => Sys2Proof.Machine.execLshiftRl reg count s
  | .lshiftRr reg count => Sys2Proof.Machine.execLshiftRr reg count s
  | .rshiftRl reg count => Sys2Proof.Machine.execRshiftRl reg count s
  | .rshiftRr reg count => Sys2Proof.Machine.execRshiftRr reg count s
  | .jgteqL target => Sys2Proof.Machine.execJgteqL target s
  | .jgteqR target => Sys2Proof.Machine.execJgteqR target s
  | .jlteqL target => Sys2Proof.Machine.execJlteqL target s
  | .jlteqR target => Sys2Proof.Machine.execJlteqR target s
  | .lshiftCarryRl reg count => Sys2Proof.Machine.execLshiftCarryRl reg count s
  | .lshiftCarryRr reg count => Sys2Proof.Machine.execLshiftCarryRr reg count s
  | .rshiftCarryRl reg count => Sys2Proof.Machine.execRshiftCarryRl reg count s
  | .rshiftCarryRr reg count => Sys2Proof.Machine.execRshiftCarryRr reg count s
  | .jmpL target => Sys2Proof.Machine.execJmpL target s
  | .jmpR target => Sys2Proof.Machine.execJmpR target s
  | .callL target => Sys2Proof.Machine.execCallL target s
  | .callR target => Sys2Proof.Machine.execCallR target s
  | .ret => Sys2Proof.Machine.execRet s
  | .ldmRl dst addr => Sys2Proof.Machine.execLdmRl dst addr s
  | .ldmRr dst addr => Sys2Proof.Machine.execLdmRr dst addr s
  | .svmRl addr value => Sys2Proof.Machine.execSvmRl addr value s
  | .svmRr addr value => Sys2Proof.Machine.execSvmRr addr value s
  | .svmLl addr value => Sys2Proof.Machine.execSvmLl addr value s
  | .svmLr addr value => Sys2Proof.Machine.execSvmLr addr value s
  | .unknown opword => Sys2Proof.Machine.execUnknown opword s

end Sys2Proof.Machine
end

