-- ==== Sys2Proof/Machine/Turn.lean ====
section
/-! DEFINITION. What the agents do: a Core's turn in a tick (30_encoding.md R101, 60_exceptions.md R283)
and the host's actions between ticks (00_scope.md R9). -/

namespace Sys2Proof.Machine

/-- Fetch the instruction at `PC`: the opcode word, then as many operand words as it calls for, in
ascending address order, each range-checked (30_encoding.md R101, R102). -/
def fetch (s : State) : Except FaultSignal Instr :=
  match memRead s s.core.pc with
  | .error f => .error f
  | .ok op =>
    match shapeOf op with
    | .words1 i => .ok i
    | .words2 build =>
      match memRead s (s.core.pc + 1) with
      | .error f => .error f
      | .ok op1 => .ok (build op1)
    | .words3 build =>
      match memRead s (s.core.pc + 1) with
      | .error f => .error f
      | .ok op1 =>
        match memRead s (s.core.pc + 2) with
        | .error f => .error f
        | .ok op2 => .ok (build op1 op2)

/-- `step(c)` for the Core whose turn it is (30_encoding.md R101): nothing unless it and the CPU are
alive (10_state.md R44), else one instruction. -/
def coreStep (s : State) : Result :=
  if s.cpuAlive && s.core.alive then orFault s (fetch s) fun i => exec i s
  else .next s

/-- Pass the turn to the next Core in core-list order; after the last, the tick is over and the next one
begins with Core 0 (60_exceptions.md R283). -/
def endTurn (s : State) : State :=
  match s.coresAfter with
  | c :: rest => { s with coresBefore := s.coresBefore ++ [s.core], core := c, coresAfter := rest }
  | [] =>
    match s.coresBefore with
    | [] => s
    | c :: rest => { s with coresBefore := [], core := c, coresAfter := rest ++ [s.core] }

/-- End the turn after an answer that is a next state. -/
def thenEndTurn : Result → Result
  | .next s => .next (endTurn s)
  | .fault f => .fault f
  | .refused r => .refused r

/-- One Core's turn of a tick (60_exceptions.md R283). -/
def coreTurn (s : State) : Result :=
  thenEndTurn (coreStep s)

/-- Change the Core with the given number in core-list order, if there is one. -/
def modifyCore (s : State) (i : Nat) (f : CoreState → CoreState) : State :=
  if i < s.coresBefore.length then { s with coresBefore := s.coresBefore.modify i f }
  else if i = s.coresBefore.length then { s with core := f s.core }
  else { s with coresAfter := s.coresAfter.modify (i - s.coresBefore.length - 1) f }

/-- `bootup()`, once per reset: copy the bootloader, mark the CPU and Core 0 alive
(70_reset_and_hazards.md R303, R306). -/
def bootup (s : State) : Result :=
  if s.booted then .refused .secondBootup
  else
    let image := s.disk.take (bootLength s.disk.length)
    let s' := { s with ram := writeWords s.ram 0 image, cpuAlive := true, booted := true }
    .next (modifyCore s' 0 fun c => { c with alive := true })

/-- `activate(i)`: set the Core's alive flag and nothing else (60_exceptions.md R286; log 14). -/
def activate (i : Nat) (s : State) : Result :=
  if i < (coreList s).length then .next (modifyCore s i fun c => { c with alive := true })
  else .refused .noSuchCore

/-- A test bench's `ALU.load` on one Core's ALU (40_alu_unit.md R138, R139; log 13). DESIGN CHOICE (log 19),
unsafe: on `DivideByZero` the caller is told and nothing of the Core changes, its alive flag and its fault
record included. The spec says that `FLAGS` and the slots stay as they are (R138) but not whether a load
outside any Core's step takes the fault of 60_exceptions.md R262. -/
def hostLoad (i : Nat) (load : CoreState → Except FaultSignal CoreState) (s : State) : Result :=
  match (coreList s)[i]? with
  | none => .refused .noSuchCore
  | some c =>
    match load c with
    | .ok c' => .next { modifyCore s i (fun _ => c') with hostReport := .done }
    | .error f => .next { s with hostReport := .divideByZero f.info }

/-- What one host action does. A `tick` starts with Core 0's turn; the turns of the other Cores are the
steps after it (00_scope.md R9, 60_exceptions.md R283). -/
def hostStep (a : HostAction) (s : State) : Result :=
  match a with
  | .bootup => bootup s
  | .tick => coreTurn s
  | .activate i => activate i s
  | .busRead b addr => .next (busRead b addr s)
  | .busWrite b addr v => .next (busWrite b addr v s)
  | .aluLoad1 i a => hostLoad i (fun c => loadOne c a) s
  | .aluLoad2 i a b => hostLoad i (fun c => loadTwo c a b) s

/-- What acts next: inside a tick the next Core in order; between ticks the host's next action, or, with
none left, another tick (00_scope.md R8, 60_exceptions.md R283, R286; log 2). -/
def nextAgent (s : State) : Result :=
  match s.coresBefore, s.host with
  | [], a :: rest => hostStep a { s with host := rest }
  | _, _ => coreTurn s

/-- The configuration in the state meets the constraints (70_reset_and_hazards.md R302). -/
def configOk (s : State) : Bool :=
  validCapacities s.ramCapacity s.disk.length

/-- Store words from a word address upward, those whose address is in range. -/
def placeWords (s : State) : Nat → List Word → State
  | _, [] => s
  | a, w :: ws =>
    placeWords (if a < s.ramCapacity then { s with ram := writeWord s.ram a w } else s) (a + 1) ws

end Sys2Proof.Machine
end

