-- ==== Sys2Proof/Machine/Step.lean ====
section
/-! DEFINITION. One step of the machine, and how an instruction is placed where the next step fetches. -/

namespace Sys2Proof.Machine

/-- One step: one Core's turn or one host action (30_encoding.md R101, 60_exceptions.md R283; logs 1, 2),
in a configuration the spec admits (70_reset_and_hazards.md R302; log 15). -/
def step (s : State) : Host.Outcome State Fault Refusal :=
  if configOk s then nextAgent s else .refused .invalidConfiguration

/-- `s` with an instruction stored at the `PC` of the Core whose turn it is, the CPU and that Core alive,
and no host action pending, so that the next step fetches and runs it (log 18). Three words are stored,
the longest instruction. -/
def State.withFetchWord (s : State) (nbits w : Nat) : State :=
  placeWords
    { s with cpuAlive := true, core := { s.core with alive := true }, host := [] }
    s.core.pc.toNat (tableWords (w % 2 ^ nbits))

end Sys2Proof.Machine
end

