-- ==== Sys2Proof/Safety.lean ====
section
/-! DEFINITION. What counts as a safe run, in the terms the claims use: faulted states and ends of a run
(60_exceptions.md R263, 70_reset_and_hazards.md R321), and the invariant that every step keeps. -/

namespace Sys2Proof.Machine

/-- Some Core has a fault record: a faulted state, never a good final state (60_exceptions.md R263). -/
def State.faulted (s : State) : Bool :=
  (coreList s).any fun c => c.fault.isSome

/-- The normal end of a run: the CPU is dead after `HALT` and no Core has faulted
(70_reset_and_hazards.md R321). -/
def State.normalEnd (s : State) : Bool :=
  s.booted && !s.cpuAlive && !s.faulted

/-- Further ticks change nothing: the CPU is dead, or every Core is (70_reset_and_hazards.md R321). -/
def State.quiescent (s : State) : Bool :=
  !s.cpuAlive || (coreList s).all fun c => !c.alive

/-- Every listed word of RAM is inside the RAM (20_memory.md R60). -/
def ramInRange (s : State) : Prop :=
  ∀ cell ∈ s.ram, cell.1 < s.ramCapacity

/-- The invariant: RAM is in canonical form and inside its capacity, and the configuration is admitted. -/
structure Inv (s : State) : Prop where
  ramWf : Memory.wf s.ram = true
  ramInRange : ramInRange s
  config : configOk s = true

end Sys2Proof.Machine
end

