-- ==== Sys2Proof/Certificates/Slice0/Obligations.lean ====
section
/-! DEFINITION. The statements for the provers. First, in `Sys2Proof.Claims`, the words they are written
in: results and frames spelled out from the rules, not taken from the model's own operations. -/

namespace Sys2Proof.Claims

open Sys2Proof.Machine

/-! ### Frames -/

/-- `t` differs from `s` in nothing but registers, protected registers and RAM: the alive flags, the fault
record, the parameters, the disk, the Buses, every other Core, the display port and the host's queue are
as before. -/
def restKept (s t : State) : Prop :=
  t = { s with
    cflags := t.cflags
    shared := t.shared
    ram := t.ram
    core := { s.core with
      flags := t.core.flags
      pc := t.core.pc
      sp := t.core.sp
      bp := t.core.bp
      si := t.core.si
      di := t.core.di
      g := t.core.g
      p := t.core.p } }

/-- Every word of RAM reads as before. -/
def ramKept (s t : State) : Prop :=
  ∀ a : Nat, readWord t.ram a = readWord s.ram a

/-- The word of RAM at `a` reads `v` and every other word reads as before. -/
def ramSet (s t : State) (a : Nat) (v : Word) : Prop :=
  ∀ b : Nat, readWord t.ram b = if b = a then v else readWord s.ram b

/-- Every register but those of the list and `PC` reads as before. -/
def regsKept (but : List Reg) (s t : State) : Prop :=
  ∀ q : Reg, q ∉ but → q ≠ .pc → getReg t q = getReg s q

/-- An instruction of `words` words that writes `v` to register `r` and nothing else: a value written to
`PC` is lost (10_state.md R30). -/
def wroteReg (s t : State) (words : Word) (r : Reg) (v : Word) : Prop :=
  (r ≠ .pc → getReg t r = v) ∧ getReg t .pc = getReg s .pc + words ∧ regsKept [r] s t ∧
    t.core.p = s.core.p ∧ ramKept s t ∧ restKept s t

/-- An instruction of `words` words that stores `v` at word address `a` of RAM and changes nothing else. -/
def storedWord (s t : State) (words : Word) (a : Nat) (v : Word) : Prop :=
  ramSet s t a v ∧ getReg t .pc = getReg s .pc + words ∧ regsKept [] s t ∧ t.core.p = s.core.p ∧
    restKept s t

/-- A call to `target`: the address after the two words of the call is stored where `SP` points, `SP` goes
down by one, and nothing else changes (46_control.md R210, R227). -/
def calledTo (s t : State) (target : Word) : Prop :=
  ramSet s t (getReg s .sp).toNat (getReg s .pc + 2) ∧ getReg t .sp = getReg s .sp - 1 ∧
    getReg t .pc = target ∧ regsKept [.sp] s t ∧ t.core.p = s.core.p ∧ restKept s t

/-- The state after the executing Core takes a fault (60_exceptions.md R262, R263). -/
def faultTaken (s : State) (cause : FaultCause) (info : Word) : State :=
  { s with core := { s.core with
      alive := false
      fault := some (s.core.fault.getD { cause := cause, info := info, address := s.core.pc }) } }

/-- The state with the executing Core's `PC` replaced. -/
def atPc (s : State) (pc : Word) : State :=
  { s with core := { s.core with pc := pc } }

/-! ### Values -/

/-- The flag register after `compare(a, b)`, by the masks of 40_alu_unit.md R135. -/
def flagsOfPair (a b : Word) : Word :=
  0x80 ||| (if a.getLsbD 31 || b.getLsbD 31 then 0x10 else 0) |||
    (if a.toNat = 0 ∨ b.toNat = 0 then 0x20 else 0) |||
    (if a.toNat = b.toNat then 0x01 else if b.toNat < a.toNat then 0x02 else 0x04)

/-- The flag register after `compare(a)`, by the masks of 40_alu_unit.md R134. -/
def flagsOfOne (a : Word) : Word :=
  if a.getLsbD 31 then 0x10 else if a.toNat = 0 then 0x20 else 0

/-- The result of an arithmetic or logic operation, in the arithmetic of 40_alu_unit.md R121 to R130. -/
def arithResult (op : AluOp) (a b : Word) : Word :=
  match op with
  | .add => BitVec.ofNat 32 ((a.toNat + b.toNat) % 2 ^ 32)
  | .sub =>
    BitVec.ofNat 32 (if b.toNat ≤ a.toNat then a.toNat - b.toNat else a.toNat + 2 ^ 32 - b.toNat)
  | .mul => BitVec.ofNat 32 ((a.toNat * b.toNat) % 2 ^ 32)
  | .div => BitVec.ofNat 32 (a.toNat / b.toNat)
  | .pow => a ^^^ b
  | .and => a &&& b
  | .or => a ||| b
  | .nor => ~~~a &&& ~~~b
  | .xor => a ^^^ b

/-- The 13 protected registers after `load(a, b)`, in slot order (10_state.md R38): slot 6 is kept. -/
def slotsOfPair (p : Vector Word 13) (a b : Word) : Vector Word 13 :=
  #v[arithResult .add a b, arithResult .sub a b, arithResult .mul a b, arithResult .div a b,
    BitVec.ofNat 32 (a.toNat % b.toNat), a ^^^ b, p[6], a &&& b, a ||| b, ~~~a &&& ~~~b, a ^^^ b, ~~~a,
    ~~~b]

/-- The result of a shift: the arithmetic of 45_shift.md R196 for a count up to 31, and for a larger one
the free value `SHIFT_OVER` of the model (R197; log 8). -/
def shiftResult (dir : ShiftDir) (a n : Word) : Word :=
  if n.toNat ≤ 31 then
    match dir with
    | .left => BitVec.ofNat 32 (a.toNat * 2 ^ n.toNat % 2 ^ 32)
    | .right => BitVec.ofNat 32 (a.toNat / 2 ^ n.toNat)
  else shiftOver dir a n

/-- The state after `call_interrupt` with a vector, before the write-back (60_exceptions.md R271 to R275).
With no display answer left the display is not initialised and answers 0. -/
def afterInterrupt (s : State) (vector : Word) : State :=
  if vector.toNat = 0x10 ∧ s.core.g[0].toNat = 1 then
    { s with pixels := s.pixels ++
        [{ x := s.core.g[1], y := s.core.g[2], r := s.core.g[4], g := s.core.g[5],
           b := s.core.g[6] }] }
  else if vector.toNat = 0x10 ∧ s.core.g[0].toNat = 3 then
    { s with
      core := { s.core with
        g := (s.core.g.set 1 (s.displayInputs.head?.elim 0 DisplaySize.width)).set 2
          (s.displayInputs.head?.elim 0 DisplaySize.height) }
      displayInputs := s.displayInputs.tail }
  else s

/-! ### The instructions of a family, each with its opcode word -/

/-- The arithmetic and logic `_RL` form of an operation. -/
def arithRlForm (op : AluOp) (d v : Word) : Instr :=
  match op with
  | .add => .addRl d v
  | .sub => .subRl d v
  | .mul => .mulRl d v
  | .div => .divRl d v
  | .pow => .powRl d v
  | .and => .andRl d v
  | .or => .orRl d v
  | .nor => .norRl d v
  | .xor => .xorRl d v

/-- The arithmetic and logic `_RR` form of an operation. -/
def arithRrForm (op : AluOp) (d w : Word) : Instr :=
  match op with
  | .add => .addRr d w
  | .sub => .subRr d w
  | .mul => .mulRr d w
  | .div => .divRr d w
  | .pow => .powRr d w
  | .and => .andRr d w
  | .or => .orRr d w
  | .nor => .norRr d w
  | .xor => .xorRr d w

/-- The opcode of the `_RL` form; the `_RR` form has the next value (30_encoding.md R97). -/
def arithOpcode (op : AluOp) : Word :=
  match op with
  | .add => 0x12
  | .sub => 0x14
  | .mul => 0x16
  | .div => 0x18
  | .pow => 0x1A
  | .and => 0x1C
  | .or => 0x1E
  | .nor => 0x20
  | .xor => 0x22

/-- The shift `_RL` forms: instruction, opcode, direction (45_shift.md R198, R200, R202, R204). -/
def shiftRlForms (d v : Word) : List (Instr × Word × ShiftDir) :=
  [(.lshiftRl d v, 0x26, .left), (.rshiftRl d v, 0x2A, .right),
    (.lshiftCarryRl d v, 0x32, .left), (.rshiftCarryRl d v, 0x36, .right)]

/-- The shift `_RR` forms: instruction, opcode, direction (45_shift.md R199, R201, R203, R205). -/
def shiftRrForms (d w : Word) : List (Instr × Word × ShiftDir) :=
  [(.lshiftRr d w, 0x27, .left), (.rshiftRr d w, 0x2B, .right),
    (.lshiftCarryRr d w, 0x33, .left), (.rshiftCarryRr d w, 0x37, .right)]

/-- The conditional `_L` jumps: instruction, opcode, and the condition on the bits of `FLAGS`
(46_control.md R213, R215, R217, R219, R221, R223). -/
def jumpLForms (target flags : Word) : List (Instr × Word × Bool) :=
  [(.jeqL target, 0x0A, flags.getLsbD 0), (.jltL target, 0x0C, flags.getLsbD 2),
    (.jgtL target, 0x0E, flags.getLsbD 1), (.jneqL target, 0x10, !flags.getLsbD 0),
    (.jgteqL target, 0x2E, flags.getLsbD 1 || flags.getLsbD 0),
    (.jlteqL target, 0x30, flags.getLsbD 2 || flags.getLsbD 0)]

/-- The conditional `_R` jumps (46_control.md R214, R216, R218, R220, R222, R224). -/
def jumpRForms (reg flags : Word) : List (Instr × Word × Bool) :=
  [(.jeqR reg, 0x0B, flags.getLsbD 0), (.jltR reg, 0x0D, flags.getLsbD 2),
    (.jgtR reg, 0x0F, flags.getLsbD 1), (.jneqR reg, 0x11, !flags.getLsbD 0),
    (.jgteqR reg, 0x2F, flags.getLsbD 1 || flags.getLsbD 0),
    (.jlteqR reg, 0x31, flags.getLsbD 2 || flags.getLsbD 0)]

/-- The 59 opcode values of the table (30_encoding.md R97). -/
def tableOpcodes : List Word :=
  [0x00, 0x01, 0x02, 0x03, 0x04, 0x07, 0x08, 0x09, 0x0A, 0x0B, 0x0C, 0x0D, 0x0E, 0x0F, 0x10, 0x11, 0x12,
    0x13, 0x14, 0x15, 0x16, 0x17, 0x18, 0x19, 0x1A, 0x1B, 0x1C, 0x1D, 0x1E, 0x1F, 0x20, 0x21, 0x22, 0x23,
    0x24, 0x25, 0x26, 0x27, 0x2A, 0x2B, 0x2E, 0x2F, 0x30, 0x31, 0x32, 0x33, 0x36, 0x37, 0x3A, 0x3B, 0x3C,
    0x3D, 0x3E, 0x40, 0x41, 0x42, 0x43, 0x44, 0x45]

/-- The operand word that names the instruction's destination register, if it has one
(30_encoding.md R98). -/
def destWord : Instr → Option Word
  | .movRl d _ | .movRr d _ | .addRl d _ | .addRr d _ | .subRl d _ | .subRr d _ | .mulRl d _
  | .mulRr d _ | .divRl d _ | .divRr d _ | .powRl d _ | .powRr d _ | .andRl d _ | .andRr d _
  | .orRl d _ | .orRr d _ | .norRl d _ | .norRr d _ | .xorRl d _ | .xorRr d _ | .notR d
  | .lshiftRl d _ | .lshiftRr d _ | .rshiftRl d _ | .rshiftRr d _ | .lshiftCarryRl d _
  | .lshiftCarryRr d _ | .rshiftCarryRl d _ | .rshiftCarryRr d _ | .ldmRl d _ | .ldmRr d _ => some d
  | _ => none

/-- The registers an instruction may write although no operand names them, `PC` apart: `G1` and `G2` by an
interrupt, `FLAGS` by a compare, `SP` by a call or return (10_state.md R23, R32, R36). -/
def implicitRegs : Instr → List Reg
  | .intL _ | .intR _ => [.g 1, .g 2]
  | .compLl _ _ | .compRl _ _ | .compRr _ _ => [.flags]
  | .callL _ | .callR _ | .ret => [.sp]
  | _ => []

/-- The instructions that may write RAM (20_memory.md R65). -/
def mayStore : Instr → Bool
  | .svmRl _ _ | .svmRr _ _ | .svmLl _ _ | .svmLr _ _ | .callL _ | .callR _ => true
  | _ => false

/-! ### The stack, several words at a time -/

/-- Push the words of a list, the first one first. -/
def pushAll : List Word → State → Except FaultSignal State
  | [], s => .ok s
  | v :: vs, s =>
    match stackPush s v with
    | .error f => .error f
    | .ok t => pushAll vs t

/-- Pop `n` words: the words in the order they come, and the state after. -/
def popAll : Nat → State → Except FaultSignal (List Word × State)
  | 0, s => .ok ([], s)
  | n + 1, s =>
    match stackPop s with
    | .error f => .error f
    | .ok (v, t) =>
      match popAll n t with
      | .error f => .error f
      | .ok (vs, u) => .ok (v :: vs, u)

/-! ### Buses -/

/-- The device's range contains the address (20_memory.md R67). -/
def inRange (d : Device) (addr : Word) : Prop :=
  d.floor.toNat ≤ addr.toNat ∧ addr.toNat ≤ d.ceil.toNat

/-- The address does not run past the end of the device (20_memory.md R75). -/
def fits (d : Device) (addr : Word) : Prop :=
  addr.toNat - d.floor.toNat < d.mem.length

/-- The device after it stored a word at a Bus address of its range (20_memory.md R69). -/
def stored (d : Device) (addr v : Word) : Device :=
  { d with mem := d.mem.set (addr.toNat - d.floor.toNat) v }

/-- `s` with one Bus and the report to the caller replaced; the other Bus is not touched. -/
def withBus (s : State) (b : BusId) (bus : BusState) (report : HostReport) : State :=
  match b with
  | .north => { s with north := bus, hostReport := report }
  | .south => { s with south := bus, hostReport := report }

/-! ### Turns and ticks -/

/-- The number of Cores. -/
def nCores (s : State) : Nat :=
  (coreList s).length

/-- The core-list number of the Core whose turn it is. -/
def turnOf (s : State) : Nat :=
  s.coresBefore.length

/-- `s` with the turn at Core `i`; the core list is the same. -/
def focus (s : State) (i : Nat) : State :=
  match (coreList s)[i]? with
  | none => s
  | some c =>
    { s with coresBefore := (coreList s).take i, core := c, coresAfter := (coreList s).drop (i + 1) }

/-- `step(i)`, `step(i + 1)`, … for `n` Cores in this order (60_exceptions.md R283). -/
def tickLoop : Nat → Nat → State → Result
  | 0, _, s => .next s
  | n + 1, i, s =>
    match coreStep (focus s i) with
    | .next t => tickLoop n (i + 1) t
    | .fault f => .fault f
    | .refused r => .refused r

/-- `tick()` as the spec writes it (60_exceptions.md R283); the turn is Core 0's again at the end. -/
def tick (s : State) : Result :=
  if s.cpuAlive = false then .next s
  else
    match tickLoop (nCores s) 0 s with
    | .next t => .next (focus t 0)
    | .fault f => .fault f
    | .refused r => .refused r

/-- The step runs a Core's turn and no host action: a tick is under way, or the host goes on ticking with
its queue empty (log 2). -/
def coresTurn (s : State) : Prop :=
  s.coresBefore ≠ [] ∨ s.host = []

/-- The next step from `s` is the turn of a Core, and `s'` is the state that turn runs in: `s` itself, or,
where the host asks for a tick between ticks (00_scope.md R9), `s` with that request taken off the queue
(log 2). -/
def turnStarts (s s' : State) : Prop :=
  coresTurn s ∧ s' = s ∨
    s.coresBefore = [] ∧ ∃ later, s.host = .tick :: later ∧ s' = { s with host := later }

/-- `s` and `t` have the same parameters (10_state.md R21): RAM's and the disk's, `ARITH_VIA_LOAD`, the
number of Cores, and each Bus's devices with their ranges and capacities. -/
def sameConfiguration (s t : State) : Prop :=
  t.ramCapacity = s.ramCapacity ∧ t.disk = s.disk ∧ t.arithViaLoad = s.arithViaLoad ∧
    nCores t = nCores s ∧
    (∀ b, (getBus t b).devices.map (fun d => (d.floor, d.ceil, d.mem.length)) =
      (getBus s b).devices.map (fun d => (d.floor, d.ceil, d.mem.length)))

end Sys2Proof.Claims

open Sys2Proof Sys2Proof.Machine Sys2Proof.Claims

/-! ### Encoding -/

/-- Decoding the words of any well-formed instruction gives the instruction back, whatever words follow. -/
def Obligations.DecodeOfEncodeGivesInstruction : Prop :=
  ∀ (i : Instr) (rest : List Word), i.wf = true → decode (encode i ++ rest) = .ok (i, rest)

/-- Words that decode are the words of the instruction they decode to, which is well formed: no word has
two readings and none is dropped. -/
def Obligations.DecodedWordsAreTheEncoding : Prop :=
  ∀ (ws rest : List Word) (i : Instr), decode ws = .ok (i, rest) →
    i.wf = true ∧ ws = encode i ++ rest

/-- R99, R154: an opcode word outside the table decodes to a one-word instruction whatever follows, and
executing it changes nothing but `PC`. That these words are the ones listed is R100, which the spec
derives from R97. That the whole word is the opcode is its decision D20 (log 16). -/
def Obligations.UnknownOpcodeIsOneWordNoOp : Prop :=
  ∀ w : Word,
    (w ∉ tableOpcodes ↔
      w ∈ ([0x05, 0x06, 0x28, 0x29, 0x2C, 0x2D, 0x34, 0x35, 0x38, 0x39, 0x3F] : List Word) ∨
        0x46 ≤ w.toNat) ∧
    (w ∉ tableOpcodes → (∀ rest, decode (w :: rest) = .ok (.unknown w, rest)) ∧
      ∀ s : State, exec (.unknown w) s = .next (atPc s (s.core.pc + 1)))

/-- The words of the source's sample image and of a few more instructions decode to what the spec says they
are. The opcode of `ADD_RL` is the spec's decision D10, and that the whole word is the opcode its D20
(log 16). -/
def Obligations.SampleWordsDecode : Prop :=
  decode [0x03, 0x07, 0x03, 0x01] = .ok (.movRl 0x07 0x03, [0x01]) ∧
    decode [0x01, 0x10] = .ok (.intL 0x10, []) ∧
    decode [0x04, 0x0A, 0x08] = .ok (.movRr 0x0A 0x08, []) ∧
    decode [0x12, 0x07, 0x05] = .ok (.addRl 0x07 0x05, []) ∧
    decode [0x45, 0x40, 0x07] = .ok (.svmLr 0x40 0x07, []) ∧
    decode [0x103, 0x07, 0x03] = .ok (.unknown 0x103, [0x07, 0x03])

/-! ### Registers and memory -/

/-- R22, R28: which register each address from 0x00 to 0x1A names, and that a larger one raises
`AddressOutOfRange(register)`. The assignment is the spec's decision D3 and the fault its D4 (log 16). -/
def Obligations.RegisterAddressMap : Prop :=
  regOfWord 0x00 = some .cflags ∧ regOfWord 0x01 = some .flags ∧ regOfWord 0x02 = some .pc ∧
    regOfWord 0x03 = some .sp ∧ regOfWord 0x04 = some .bp ∧ regOfWord 0x05 = some .si ∧
    regOfWord 0x06 = some .di ∧
    (∀ k : Fin 16, regOfWord (BitVec.ofNat 32 (0x07 + k.val)) = some (.g k)) ∧
    (∀ k : Fin 4, regOfWord (BitVec.ofNat 32 (0x17 + k.val)) = some (.s k)) ∧
    ∀ w : Word, 0x1A < w.toNat →
      resolveReg w = .error { cause := .addressOutOfRangeRegister, info := w }

/-- R26: a word written to any valid register address reads back, the other 26 registers are unchanged, and
nothing that is not a register changes. The map is the spec's decision D3, and that a flag register
keeps all 32 bits its D35 (log 16). -/
def Obligations.RegisterWriteThenReadGivesValue : Prop :=
  ∀ (s : State) (a b v : Word) (r q : Reg), regOfWord a = some r → regOfWord b = some q →
    getReg (setReg s r v) q = (if b = a then v else getReg s q) ∧
      (setReg s r v).core.p = s.core.p ∧ (setReg s r v).ram = s.ram ∧ restKept s (setReg s r v)

/-- R62, R63: a read or a write at or above `RAM_CAPACITY` raises `AddressOutOfRange(memory)`; below it, a
read gives the word there, and a write replaces that word and no other, in canonical form. The range
check is the spec's decision D5 (R64, log 16); the canonical form, in which no word 0 is listed, is the
model's choice (logs 6, 7). -/
def Obligations.MemoryAccessIsRangeChecked : Prop :=
  ∀ (s : State) (a v : Word),
    (s.ramCapacity ≤ a.toNat →
      memRead s a = .error { cause := .addressOutOfRangeMemory, info := a } ∧
        memWrite s a v = .error { cause := .addressOutOfRangeMemory, info := a }) ∧
    (a.toNat < s.ramCapacity → memRead s a = .ok (readWord s.ram a.toNat) ∧
      (Memory.wf s.ram = true → ∃ t, memWrite s a v = .ok t ∧ ramSet s t a.toNat v ∧
        Memory.wf t.ram = true ∧ t = { s with ram := t.ram }))

/-! ### System instructions -/

/-- R150: `NOP` completes in every state and changes `PC` alone. -/
def Obligations.NopAdvancesPc : Prop :=
  encode .nop = [0x00] ∧ ∀ s : State, exec .nop s = .next (atPc s (s.core.pc + 1))

/-- R151, R271 to R275: `INT_L` completes in every state; with vector 0x10 and task 1 it issues `setPixel`,
with task 3 it reports the resolution, and else it does nothing but advance. That the pixel words pass
as they are is the spec's decision D22, that other tasks do nothing its D21 (log 16); with no display
answer left the model's display answers 0 (log 9). That the whole vector and task code count is its D20,
and whose registers the handler uses its D36. -/
def Obligations.IntLiteralCallsInterrupt : Prop :=
  ∀ (s : State) (vector : Word),
    encode (.intL vector) = [0x01, vector] ∧
      exec (.intL vector) s = .next (atPc (afterInterrupt s vector) (s.core.pc + 2))

/-- R152: `INT_R` does the same with the vector in a register, and faults when its operand names none. The
same decisions and log 9 stand behind it. Raising and taking the register fault are the spec's decisions
D4, D7, D33 (log 16). -/
def Obligations.IntRegisterCallsInterrupt : Prop :=
  ∀ (s : State) (w : Word),
    encode (.intR w) = [0x02, w] ∧
    (∀ r, regOfWord w = some r →
      exec (.intR w) s = .next (atPc (afterInterrupt s (getReg s r)) (s.core.pc + 2))) ∧
    (0x1A < w.toNat → exec (.intR w) s = .next (faultTaken s .addressOutOfRangeRegister w))

/-- R153, R287: `HALT` completes in every state, clears every alive flag and the CPU's, and advances `PC`;
nothing else changes. That the halting Core's `PC` is still written is the spec's decision D23 (log 16). -/
def Obligations.HaltStopsEveryCore : Prop :=
  encode .halt = [0x25] ∧
    ∀ s : State, exec .halt s = .next { s with
      cpuAlive := false
      coresBefore := s.coresBefore.map fun c => { c with alive := false }
      core := { s.core with alive := false, pc := s.core.pc + 1 }
      coresAfter := s.coresAfter.map fun c => { c with alive := false } }

/-- After the CPU is dead, any number of ticks changes nothing but whose turn it is (R287, R289). That an
empty host queue means further ticks is the model's form (log 2). That a tick does nothing while the CPU
is dead is the spec's decision D30 (log 16). -/
def Obligations.DeadCpuNeverExecutesAgain : Prop :=
  ∀ (n : Nat) (s : State), s.cpuAlive = false → s.host = [] → configOk s = true →
    ∃ t, Sys2Proof.core.run n s = .next t ∧ coreList t = coreList s ∧
      t = { s with coresBefore := t.coresBefore, core := t.core, coresAfter := t.coresAfter }

/-! ### Move and compare -/

/-- R160: `MOV_RL`. Raising and taking the register fault are the spec's decisions D4, D7, D33 (log 16). -/
def Obligations.MovLiteralWritesDestination : Prop :=
  ∀ (s : State) (d v : Word),
    encode (.movRl d v) = [0x03, d, v] ∧
    (∀ r, regOfWord d = some r → ∃ t, exec (.movRl d v) s = .next t ∧ wroteReg s t 3 r v) ∧
    (0x1A < d.toNat → exec (.movRl d v) s = .next (faultTaken s .addressOutOfRangeRegister d))

/-- R161: `MOV_RR`. Raising and taking the register fault are the spec's decisions D4, D7, D33, and that
operand 1 is checked first is its D19 (log 16). -/
def Obligations.MovRegisterCopiesSource : Prop :=
  ∀ (s : State) (d w : Word),
    encode (.movRr d w) = [0x04, d, w] ∧
    (∀ r q, regOfWord d = some r → regOfWord w = some q →
      ∃ t, exec (.movRr d w) s = .next t ∧ wroteReg s t 3 r (getReg s q)) ∧
    (0x1A < d.toNat → exec (.movRr d w) s = .next (faultTaken s .addressOutOfRangeRegister d)) ∧
    (d.toNat ≤ 0x1A → 0x1A < w.toNat →
      exec (.movRr d w) s = .next (faultTaken s .addressOutOfRangeRegister w))

/-- R165, R166, R167: the compares write all of the executing Core's `FLAGS`, advance `PC`, and change
nothing else. That it is this flag register is the spec's decision D8, the sense of `GREATER_THAN` its
D9, that all 32 bits are cleared first its D35. Raising and taking the register fault are the spec's
decisions D4, D7, D33, the order of the checks its D19 (log 16). -/
def Obligations.CompareWritesFlags : Prop :=
  ∀ (s : State) (a b : Word),
    encode (.compLl a b) = [0x07, a, b] ∧ encode (.compRl a b) = [0x08, a, b] ∧
    encode (.compRr a b) = [0x09, a, b] ∧
    exec (.compLl a b) s = .next { s with
      core := { s.core with flags := flagsOfPair a b, pc := s.core.pc + 3 } } ∧
    (∀ r, regOfWord a = some r → exec (.compRl a b) s = .next { s with
      core := { s.core with flags := flagsOfPair (getReg s r) b, pc := s.core.pc + 3 } }) ∧
    (∀ r q, regOfWord a = some r → regOfWord b = some q → exec (.compRr a b) s = .next { s with
      core := { s.core with flags := flagsOfPair (getReg s r) (getReg s q), pc := s.core.pc + 3 } }) ∧
    (0x1A < a.toNat →
      exec (.compRl a b) s = .next (faultTaken s .addressOutOfRangeRegister a) ∧
        exec (.compRr a b) s = .next (faultTaken s .addressOutOfRangeRegister a)) ∧
    (a.toNat ≤ 0x1A → 0x1A < b.toNat →
      exec (.compRr a b) s = .next (faultTaken s .addressOutOfRangeRegister b))

/-- R134, R135: the two compares on any flag register. That `GREATER_THAN` means the first operand is the
greater is the spec's decision D9, and that the compare clears all 32 bits first its D35 (log 16). -/
def Obligations.CompareFlagRules : Prop :=
  ∀ reg a b : Word, compareOne reg a = flagsOfOne a ∧ compareTwo reg a b = flagsOfPair a b

/-- The source's testable property of the compare (R140): exactly one of the three relations, TWO_COMPARED
always, NEGATIVE and ZERO by the operands; and CARRY and OVERFLOW never (R135). The sense of
`GREATER_THAN` is the spec's decision D9 (log 16). -/
def Obligations.CompareSetsExactlyOneRelation : Prop :=
  ∀ reg a b : Word,
    (getFlag .equal (compareTwo reg a b) = true ↔ a.toNat = b.toNat) ∧
    (getFlag .greaterThan (compareTwo reg a b) = true ↔ b.toNat < a.toNat) ∧
    (getFlag .lessThan (compareTwo reg a b) = true ↔ a.toNat < b.toNat) ∧
    getFlag .twoCompared (compareTwo reg a b) = true ∧
    (getFlag .negative (compareTwo reg a b) = true ↔ 2 ^ 31 ≤ a.toNat ∨ 2 ^ 31 ≤ b.toNat) ∧
    (getFlag .zero (compareTwo reg a b) = true ↔ a.toNat = 0 ∨ b.toNat = 0) ∧
    getFlag .carry (compareTwo reg a b) = false ∧ getFlag .overflow (compareTwo reg a b) = false

/-- R35: the flag controller's operations are independent bit operations on one flag register. That clearing
all flags clears all 32 bits is the spec's decision D35 (log 16). -/
def Obligations.FlagOperationsAreIndependent : Prop :=
  ∀ (f h : Flag) (reg : Word),
    getFlag h (setFlag f reg) = (if h = f then true else getFlag h reg) ∧
    getFlag h (clearFlag f reg) = (if h = f then false else getFlag h reg) ∧
    clearAllFlags reg = 0 ∧
    (∀ n, 8 ≤ n → (setFlag f reg).getLsbD n = reg.getLsbD n ∧
      (clearFlag f reg).getLsbD n = reg.getLsbD n)

/-! ### Arithmetic and logic -/

/-- R171, R173, …, R187: the nine `_RL` forms, with `ARITH_VIA_LOAD = false` as this spec has it (its
decision D11). The opcode of each is the spec's decision D10, and that `DIV_RL` gives the quotient its
D12. Raising and taking the register fault are the spec's decisions D4, D7, D33, those of a zero divisor
its D6, D7, D33 (log 16). -/
def Obligations.ArithmeticLiteralResult : Prop :=
  ∀ (op : AluOp) (s : State) (d v : Word),
    encode (arithRlForm op d v) = [arithOpcode op, d, v] ∧
    (0x1A < d.toNat →
      exec (arithRlForm op d v) s = .next (faultTaken s .addressOutOfRangeRegister d)) ∧
    (s.arithViaLoad = false → ∀ r, regOfWord d = some r →
      (op = .div ∧ v = 0 →
        exec (arithRlForm op d v) s = .next (faultTaken s .divideByZero (getReg s r))) ∧
      (¬(op = .div ∧ v = 0) → ∃ t, exec (arithRlForm op d v) s = .next t ∧
        wroteReg s t 3 r (arithResult op (getReg s r) v)))

/-- R172, R174, …, R188: the nine `_RR` forms, with `ARITH_VIA_LOAD = false` as this spec has it (its
decision D11). The opcode of each is the spec's decision D10, and that `DIV_RR` gives the quotient its
D12. Raising and taking the register fault are the spec's decisions D4, D7, D33, those of a zero divisor
its D6, D7, D33, the order of the checks its D19 (log 16). -/
def Obligations.ArithmeticRegisterResult : Prop :=
  ∀ (op : AluOp) (s : State) (d w : Word),
    encode (arithRrForm op d w) = [arithOpcode op + 1, d, w] ∧
    (0x1A < d.toNat →
      exec (arithRrForm op d w) s = .next (faultTaken s .addressOutOfRangeRegister d)) ∧
    (d.toNat ≤ 0x1A → 0x1A < w.toNat →
      exec (arithRrForm op d w) s = .next (faultTaken s .addressOutOfRangeRegister w)) ∧
    (s.arithViaLoad = false → ∀ r q, regOfWord d = some r → regOfWord w = some q →
      (op = .div ∧ getReg s q = 0 →
        exec (arithRrForm op d w) s = .next (faultTaken s .divideByZero (getReg s r))) ∧
      (¬(op = .div ∧ getReg s q = 0) → ∃ t, exec (arithRrForm op d w) s = .next t ∧
        wroteReg s t 3 r (arithResult op (getReg s r) (getReg s q))))

/-- R189: `NOT_R`, with `ARITH_VIA_LOAD = false` as this spec has it (its decision D11). Raising and taking
the register fault are the spec's decisions D4, D7, D33 (log 16). -/
def Obligations.NotComplementsRegister : Prop :=
  ∀ (s : State) (d : Word),
    encode (.notR d) = [0x24, d] ∧
    (0x1A < d.toNat → exec (.notR d) s = .next (faultTaken s .addressOutOfRangeRegister d)) ∧
    (s.arithViaLoad = false → ∀ r, regOfWord d = some r → ∃ t, exec (.notR d) s = .next t ∧
      wroteReg s t 2 r (BitVec.ofNat 32 (0xFFFFFFFF - (getReg s r).toNat)))

/-- R139: with `ARITH_VIA_LOAD = true` (the other reading of the spec's decision D11; log 12) the 18
two-operand forms load the pair, so that `FLAGS` and the protected registers are rewritten, and fault on
every zero second operand. The opcodes are its D10, the fault of a zero second operand its D6, D7, D33
(log 16). -/
def Obligations.ArithmeticThroughLoad : Prop :=
  ∀ (op : AluOp) (s : State) (d v w : Word) (r q : Reg), s.arithViaLoad = true →
    regOfWord d = some r → regOfWord w = some q →
    (∀ (i : Instr) (b : Word),
      (i = arithRlForm op d v ∧ b = v) ∨ (i = arithRrForm op d w ∧ b = getReg s q) →
      (b = 0 → exec i s = .next (faultTaken s .divideByZero (getReg s r))) ∧
      (b ≠ 0 → ∃ t, exec i s = .next t ∧
        (r ≠ .pc → getReg t r = arithResult op (getReg s r) b) ∧
        (r ≠ .flags → getReg t .flags = flagsOfPair (getReg s r) b) ∧
        getReg t .pc = getReg s .pc + 3 ∧ regsKept [r, .flags] s t ∧
        t.core.p = slotsOfPair s.core.p (getReg s r) b ∧ ramKept s t ∧ restKept s t))

/-- R139, R136: with `ARITH_VIA_LOAD = true` (the other reading of the spec's decision D11; log 12), `NOT_R`
loads its operand and writes the `NOT_A` slot. -/
def Obligations.NotThroughLoad : Prop :=
  ∀ (s : State) (d : Word) (r : Reg), s.arithViaLoad = true → regOfWord d = some r →
    ∃ t, exec (.notR d) s = .next t ∧
      (r ≠ .pc → getReg t r = ~~~(getReg s r)) ∧
      (r ≠ .flags → getReg t .flags = flagsOfOne (getReg s r)) ∧
      getReg t .pc = getReg s .pc + 2 ∧ regsKept [r, .flags] s t ∧
      t.core.p = slotsOfPair s.core.p (getReg s r) 0xFFFFFFFF ∧ ramKept s t ∧ restKept s t

/-- R121 to R130: the primitives, in the arithmetic the rules give. The fault of a zero divisor is the
spec's decision D6, and that `xor` equals `pow` is derived by the spec (log 16). -/
def Obligations.AluPrimitiveRules : Prop :=
  ∀ a b : Word,
    (aluAdd a b).toNat = (a.toNat + b.toNat) % 2 ^ 32 ∧
    (aluSub a b).toNat =
      (if b.toNat ≤ a.toNat then a.toNat - b.toNat else a.toNat + 2 ^ 32 - b.toNat) ∧
    (aluMul a b).toNat = a.toNat * b.toNat % 2 ^ 32 ∧
    (b = 0 → divF a b = .error { cause := .divideByZero, info := a }) ∧
    (b ≠ 0 → ∃ q r, divF a b = .ok (q, r) ∧ r.toNat = a.toNat % b.toNat ∧
      q.toNat = a.toNat / b.toNat) ∧
    (∀ k, k < 32 →
      (aluAnd a b).getLsbD k = (a.getLsbD k && b.getLsbD k) ∧
      (aluOr a b).getLsbD k = (a.getLsbD k || b.getLsbD k) ∧
      (aluNor a b).getLsbD k = !(a.getLsbD k || b.getLsbD k)) ∧
    (aluNot a).toNat = 0xFFFFFFFF - a.toNat ∧ aluPow a b = a ^^^ b ∧ aluXor a b = aluPow a b

/-- R136, R137, R138: a test bench's load on Core `i` fills that Core's flags and slots and nothing else; a
zero second operand changes nothing and is reported to the caller. All-or-nothing is the spec's decision
D15, the slot order its D14 (log 16); the host action and its report are the model's form (log 13), and
that such a load neither kills the Core nor sets its fault record is the model's choice (log 19). -/
def Obligations.LoadFillsEverySlot : Prop :=
  ∀ (s : State) (i : Nat) (c : CoreState) (a b : Word), (coreList s)[i]? = some c →
    (b = 0 → hostStep (.aluLoad2 i a b) s = .next { s with hostReport := .divideByZero a }) ∧
    (b ≠ 0 → ∃ t, hostStep (.aluLoad2 i a b) s = .next t ∧
      coreList t = (coreList s).set i
        { c with flags := flagsOfPair a b, p := slotsOfPair c.p a b } ∧
      turnOf t = turnOf s ∧
      t = { s with
        coresBefore := t.coresBefore
        core := t.core
        coresAfter := t.coresAfter
        hostReport := .done }) ∧
    (∃ t, hostStep (.aluLoad1 i a) s = .next t ∧
      coreList t = (coreList s).set i
        { c with flags := flagsOfOne a, p := slotsOfPair c.p a 0xFFFFFFFF } ∧
      turnOf t = turnOf s ∧
      t = { s with
        coresBefore := t.coresBefore
        core := t.core
        coresAfter := t.coresAfter
        hostReport := .done })

/-! ### Shifts -/

/-- R196 to R205, `_RL`: a count up to 31 gives the value the rule states; a larger one gives the free value
`SHIFT_OVER` (the spec's decision D13; the model's choice of form, log 8), and the instruction
completes. Raising and taking the register fault are the spec's decisions D4, D7, D33 (log 16). -/
def Obligations.ShiftByLiteralResult : Prop :=
  ∀ (s : State) (d v : Word), ∀ e ∈ shiftRlForms d v,
    encode e.1 = [e.2.1, d, v] ∧
    (0x1A < d.toNat → exec e.1 s = .next (faultTaken s .addressOutOfRangeRegister d)) ∧
    (∀ r, regOfWord d = some r → ∃ t, exec e.1 s = .next t ∧
      wroteReg s t 3 r (shiftResult e.2.2 (getReg s r) v))

/-- R196 to R205, `_RR`: the same with the count in a register (log 8 again for a count above 31). Raising
and taking the register fault are the spec's decisions D4, D7, D33, the order of the checks its D19 (log
16). -/
def Obligations.ShiftByRegisterResult : Prop :=
  ∀ (s : State) (d w : Word), ∀ e ∈ shiftRrForms d w,
    encode e.1 = [e.2.1, d, w] ∧
    (0x1A < d.toNat → exec e.1 s = .next (faultTaken s .addressOutOfRangeRegister d)) ∧
    (d.toNat ≤ 0x1A → 0x1A < w.toNat →
      exec e.1 s = .next (faultTaken s .addressOutOfRangeRegister w)) ∧
    (∀ r q, regOfWord d = some r → regOfWord w = some q → ∃ t, exec e.1 s = .next t ∧
      wroteReg s t 3 r (shiftResult e.2.2 (getReg s r) (getReg s q)))

/-! ### Control transfer -/

/-- R230, R213, …, R223: the conditional jumps to a literal target complete in every state and change `PC`
alone. That they test the executing Core's `FLAGS` and not `CFLAGS` is the spec's decision D8 (R36, log
16). -/
def Obligations.ConditionalJumpToLiteral : Prop :=
  ∀ (s : State) (target : Word), ∀ e ∈ jumpLForms target s.core.flags,
    encode e.1 = [e.2.1, target] ∧
      exec e.1 s = .next (atPc s (if e.2.2 then target else s.core.pc + 2))

/-- R230, R214, …, R224: the conditional jumps through a register; the operand is validated whether or not
the jump is taken. That they test the executing Core's `FLAGS` is the spec's decision D8, the check of a
jump not taken its D19. Raising and taking the register fault are the spec's decisions D4, D7, D33 (log
16). -/
def Obligations.ConditionalJumpThroughRegister : Prop :=
  ∀ (s : State) (w : Word), ∀ e ∈ jumpRForms w s.core.flags,
    encode e.1 = [e.2.1, w] ∧
    (0x1A < w.toNat → exec e.1 s = .next (faultTaken s .addressOutOfRangeRegister w)) ∧
    (∀ r, regOfWord w = some r →
      exec e.1 s = .next (atPc s (if e.2.2 then getReg s r else s.core.pc + 2)))

/-- R225, R226: the unconditional jumps. Raising and taking the register fault are the spec's decisions D4,
D7, D33 (log 16). -/
def Obligations.UnconditionalJump : Prop :=
  ∀ (s : State) (w : Word),
    encode (.jmpL w) = [0x3A, w] ∧ encode (.jmpR w) = [0x3B, w] ∧
    exec (.jmpL w) s = .next (atPc s w) ∧
    (∀ r, regOfWord w = some r → exec (.jmpR w) s = .next (atPc s (getReg s r))) ∧
    (0x1A < w.toNat → exec (.jmpR w) s = .next (faultTaken s .addressOutOfRangeRegister w))

/-- R227, R228, R210: the calls push the address after them and jump to the target, read before the push.
The return address and the order are the spec's decision D18, the wrap of `SP` its D17. Raising and
taking the faults are the spec's decisions D4, D5, D7, D33 (log 16). -/
def Obligations.CallPushesReturnAddress : Prop :=
  ∀ (s : State) (w : Word), Memory.wf s.ram = true →
    encode (.callL w) = [0x3C, w] ∧ encode (.callR w) = [0x3D, w] ∧
    (s.core.sp.toNat < s.ramCapacity → ∃ t, exec (.callL w) s = .next t ∧ calledTo s t w) ∧
    (s.ramCapacity ≤ s.core.sp.toNat →
      exec (.callL w) s = .next (faultTaken s .addressOutOfRangeMemory s.core.sp)) ∧
    (0x1A < w.toNat → exec (.callR w) s = .next (faultTaken s .addressOutOfRangeRegister w)) ∧
    (∀ r, regOfWord w = some r →
      (s.core.sp.toNat < s.ramCapacity →
        ∃ t, exec (.callR w) s = .next t ∧ calledTo s t (getReg s r)) ∧
      (s.ramCapacity ≤ s.core.sp.toNat →
        exec (.callR w) s = .next (faultTaken s .addressOutOfRangeMemory s.core.sp)))

/-- R229, R211: `RET` pops the return address; on an empty stack it jumps to 0 and `SP` stays. That `SP`
above `BP` also counts as empty is the spec's decision D16. Raising and taking the memory fault are its
decisions D5, D7, D33 (log 16). -/
def Obligations.RetPopsReturnAddress : Prop :=
  encode .ret = [0x3E] ∧ ∀ s : State,
    (s.core.bp.toNat ≤ s.core.sp.toNat → exec .ret s = .next (atPc s 0)) ∧
    (s.core.sp.toNat < s.core.bp.toNat → s.core.sp.toNat + 1 < s.ramCapacity →
      exec .ret s = .next { s with core := { s.core with
        sp := s.core.sp + 1
        pc := readWord s.ram (s.core.sp.toNat + 1) } }) ∧
    (s.core.sp.toNat < s.core.bp.toNat → s.ramCapacity ≤ s.core.sp.toNat + 1 →
      exec .ret s = .next (faultTaken s .addressOutOfRangeMemory (s.core.sp + 1)))

/-- R212: words pushed in range come back in reverse order with every register as it was, and popping past
the base then gives 0 and changes nothing. -/
def Obligations.StackRoundTrip : Prop :=
  ∀ (s : State) (vs : List Word), Memory.wf s.ram = true → s.core.sp.toNat < s.ramCapacity →
    vs.length ≤ s.core.sp.toNat → s.core.sp.toNat ≤ s.core.bp.toNat →
    ∃ t u, pushAll vs s = .ok t ∧ popAll vs.length t = .ok (vs.reverse, u) ∧
      u.core = s.core ∧ u.cflags = s.cflags ∧ u.shared = s.shared ∧
      (s.core.sp = s.core.bp → stackPop u = .ok (0, u))

/-! ### Load and store -/

/-- R241, R242: the loads. Raising and taking the faults are the spec's decisions D4, D5, D7, D33, the order
of the checks its D19 (log 16). -/
def Obligations.LoadReadsRam : Prop :=
  ∀ (s : State) (d w : Word),
    encode (.ldmRl d w) = [0x40, d, w] ∧ encode (.ldmRr d w) = [0x41, d, w] ∧
    (0x1A < d.toNat →
      exec (.ldmRl d w) s = .next (faultTaken s .addressOutOfRangeRegister d) ∧
        exec (.ldmRr d w) s = .next (faultTaken s .addressOutOfRangeRegister d)) ∧
    (∀ r, regOfWord d = some r →
      (w.toNat < s.ramCapacity →
        ∃ t, exec (.ldmRl d w) s = .next t ∧ wroteReg s t 3 r (readWord s.ram w.toNat)) ∧
      (s.ramCapacity ≤ w.toNat →
        exec (.ldmRl d w) s = .next (faultTaken s .addressOutOfRangeMemory w)) ∧
      (0x1A < w.toNat →
        exec (.ldmRr d w) s = .next (faultTaken s .addressOutOfRangeRegister w)) ∧
      (∀ q, regOfWord w = some q →
        ((getReg s q).toNat < s.ramCapacity → ∃ t, exec (.ldmRr d w) s = .next t ∧
          wroteReg s t 3 r (readWord s.ram (getReg s q).toNat)) ∧
        (s.ramCapacity ≤ (getReg s q).toNat →
          exec (.ldmRr d w) s = .next (faultTaken s .addressOutOfRangeMemory (getReg s q)))))

/-- R243, R245: the stores of a literal value. Raising and taking the faults are the spec's decisions D4,
D5, D7, D33 (log 16). -/
def Obligations.StoreLiteralWritesRam : Prop :=
  ∀ (s : State) (w v : Word), Memory.wf s.ram = true →
    encode (.svmRl w v) = [0x42, w, v] ∧ encode (.svmLl w v) = [0x44, w, v] ∧
    (w.toNat < s.ramCapacity →
      ∃ t, exec (.svmLl w v) s = .next t ∧ storedWord s t 3 w.toNat v) ∧
    (s.ramCapacity ≤ w.toNat →
      exec (.svmLl w v) s = .next (faultTaken s .addressOutOfRangeMemory w)) ∧
    (0x1A < w.toNat → exec (.svmRl w v) s = .next (faultTaken s .addressOutOfRangeRegister w)) ∧
    (∀ r, regOfWord w = some r →
      ((getReg s r).toNat < s.ramCapacity →
        ∃ t, exec (.svmRl w v) s = .next t ∧ storedWord s t 3 (getReg s r).toNat v) ∧
      (s.ramCapacity ≤ (getReg s r).toNat →
        exec (.svmRl w v) s = .next (faultTaken s .addressOutOfRangeMemory (getReg s r))))

/-- R244, R246: the stores of a register's value. Raising and taking the faults are the spec's decisions D4,
D5, D7, D33, and that the registers are checked before the address is its D19 (log 16). -/
def Obligations.StoreRegisterWritesRam : Prop :=
  ∀ (s : State) (w v : Word), Memory.wf s.ram = true →
    encode (.svmRr w v) = [0x43, w, v] ∧ encode (.svmLr w v) = [0x45, w, v] ∧
    (0x1A < w.toNat → exec (.svmRr w v) s = .next (faultTaken s .addressOutOfRangeRegister w)) ∧
    (0x1A < v.toNat →
      exec (.svmLr w v) s = .next (faultTaken s .addressOutOfRangeRegister v) ∧
        (w.toNat ≤ 0x1A →
          exec (.svmRr w v) s = .next (faultTaken s .addressOutOfRangeRegister v))) ∧
    (∀ q, regOfWord v = some q →
      (w.toNat < s.ramCapacity →
        ∃ t, exec (.svmLr w v) s = .next t ∧ storedWord s t 3 w.toNat (getReg s q)) ∧
      (s.ramCapacity ≤ w.toNat →
        exec (.svmLr w v) s = .next (faultTaken s .addressOutOfRangeMemory w)) ∧
      (∀ r, regOfWord w = some r →
        ((getReg s r).toNat < s.ramCapacity → ∃ t, exec (.svmRr w v) s = .next t ∧
          storedWord s t 3 (getReg s r).toNat (getReg s q)) ∧
        (s.ramCapacity ≤ (getReg s r).toNat →
          exec (.svmRr w v) s = .next (faultTaken s .addressOutOfRangeMemory (getReg s r)))))

/-! ### Frames over all instructions -/

/-- Every instruction, with any operands and in any state, answers a next state: none is refused, and its
faults are taken by the Core (R262, the spec's decision D7; log 11). -/
def Obligations.EveryInstructionAnswersNext : Prop :=
  ∀ (i : Instr) (s : State), ∃ t, exec i s = .next t

/-- With `ARITH_VIA_LOAD = false` no instruction changes a register other than its destination, those it
writes implicitly, and `PC`; and none changes a protected register (R36, R39: the spec's decision D8 and
its derivation, log 16). -/
def Obligations.OnlyNamedRegistersChange : Prop :=
  ∀ (i : Instr) (s t : State), s.arithViaLoad = false → exec i s = .next t →
    t.core.p = s.core.p ∧
    ∀ q : Reg, q ≠ .pc → (∀ d, destWord i = some d → regOfWord d ≠ some q) → q ∉ implicitRegs i →
      getReg t q = getReg s q

/-- R65, R66, R74: no instruction but the stores and the calls changes RAM, and no instruction changes the
disk or a Bus (the spec's derivation and its decision D32, log 16). -/
def Obligations.OnlyStoresAndCallsChangeRam : Prop :=
  ∀ (i : Instr) (s t : State), exec i s = .next t →
    (mayStore i = false → t.ram = s.ram) ∧ t.disk = s.disk ∧ t.north = s.north ∧ t.south = s.south

/-- No instruction but `HALT` changes anything of another Core or the CPU's alive flag (R285, R44). That a
fault leaves the others is the spec's decision D33 (log 16). -/
def Obligations.OtherCoresAreUntouched : Prop :=
  ∀ (i : Instr) (s t : State), i ≠ .halt → exec i s = .next t →
    t.coresBefore = s.coresBefore ∧ t.coresAfter = s.coresAfter ∧ t.cpuAlive = s.cpuAlive

/-- A Core dies only by `HALT` or by a fault, which sets its record, and no instruction revives one (R44,
and the spec's decision D7 with its conflict C4; log 16). -/
def Obligations.InstructionKillsOnlyByHaltOrFault : Prop :=
  ∀ (i : Instr) (s t : State), exec i s = .next t →
    (t.core.alive = true → s.core.alive = true) ∧
    (i ≠ .halt → s.core.alive = true → t.core.alive = false → t.core.fault.isSome = true)

/-! ### Faults -/

/-- R262, R263: what taking a fault does, and that a second one does not overwrite the record.
Halt-and-record is the spec's decision D7 (log 16). -/
def Obligations.FaultHaltsCoreAndRecords : Prop :=
  ∀ (s : State) (cause cause' : FaultCause) (info info' : Word),
    takeFault s { cause := cause, info := info } = faultTaken s cause info ∧
    (takeFault (takeFault s { cause := cause, info := info }) { cause := cause', info := info' })
      = takeFault s { cause := cause, info := info }

/-- A fault record, once set, is never changed by a step: it is sticky (R263; the record is the spec's
decision D7, log 16). -/
def Obligations.FaultRecordIsSticky : Prop :=
  ∀ (s t : State) (i : Nat) (c : CoreState) (f : FaultRecord), step s = .next t →
    (coreList s)[i]? = some c → c.fault = some f →
    ∃ c', (coreList t)[i]? = some c' ∧ c'.fault = some f

/-- R101, R102, R265: the words of the instruction are fetched in ascending order, each range-checked; the
first that is out of range is the fault taken, and the turn passes on, whether the tick is under way,
goes on by itself, or is asked for by the host (R9). The check is the spec's decision D5, taking it its
D7, D33, the order its D19 (log 16); the step and the host queue are the model's form (logs 1, 2). -/
def Obligations.FetchOutOfRangeFaults : Prop :=
  ∀ s s' : State, configOk s = true → turnStarts s s' → s.cpuAlive = true → s.core.alive = true →
    (s.ramCapacity ≤ s.core.pc.toNat →
      step s = .next (endTurn (faultTaken s' .addressOutOfRangeMemory s.core.pc))) ∧
    (s.core.pc.toNat + 1 = s.ramCapacity →
      1 ≤ (shapeOf (readWord s.ram s.core.pc.toNat)).operandCount →
      step s = .next (endTurn (faultTaken s' .addressOutOfRangeMemory (s.core.pc + 1)))) ∧
    (s.core.pc.toNat + 2 = s.ramCapacity →
      (shapeOf (readWord s.ram s.core.pc.toNat)).operandCount = 2 →
      step s = .next (endTurn (faultTaken s' .addressOutOfRangeMemory (s.core.pc + 2))))

/-! ### Steps, turns, ticks -/

/-- R101: when the words at `PC` decode to an instruction that lies in range, a step of a live Core executes
that instruction and passes the turn, whether the tick is under way, goes on by itself, or is asked for
by the host (the step and the host queue are the model's form, logs 1 and 2). -/
def Obligations.StepRunsDecodedInstruction : Prop :=
  ∀ (s : State) (i : Instr) (rest : List Word), configOk s = true → s.cpuAlive = true →
    s.core.alive = true →
    decode [readWord s.ram s.core.pc.toNat, readWord s.ram (s.core.pc.toNat + 1),
      readWord s.ram (s.core.pc.toNat + 2)] = .ok (i, rest) →
    s.core.pc.toNat + (encode i).length ≤ s.ramCapacity →
    (coresTurn s → step s = thenEndTurn (exec i s)) ∧
    (∀ later, s.coresBefore = [] → s.host = .tick :: later →
      step s = thenEndTurn (exec i { s with host := later }))

/-- R44, R101, R283: the turn of a dead Core, or with the CPU dead, changes nothing but whose turn it is,
whether the tick is under way, goes on by itself, or is asked for by the host (R9). The turn as a step
and the host queue are the model's form (logs 1, 2). That nothing executes while the CPU is dead is the
spec's decision D30 (log 16). -/
def Obligations.DeadCoreIgnoresTicks : Prop :=
  ∀ s s' : State, configOk s = true → turnStarts s s' → s.cpuAlive = false ∨ s.core.alive = false →
    step s = .next (endTurn s')

/-- R283: a turn keeps the number of Cores and passes to the next Core in core-list order, from the last to
Core 0 (the representation is the model's, log 3). -/
def Obligations.TurnPassesInCoreListOrder : Prop :=
  ∀ s t : State, coreTurn s = .next t →
    nCores t = nCores s ∧ turnOf t = (if turnOf s + 1 = nCores s then 0 else turnOf s + 1)

/-- R283: from the start of a tick, asked for by the host (R9) or going on by itself, as many steps as there
are Cores are exactly `tick()`. The moment at which the alive flags are tested is the spec's decisions
D23, D30, D33 (log 16); turn-wise steps and the host queue are the model's form (logs 1, 2, 3). -/
def Obligations.StepsOfAllCoresAreOneTick : Prop :=
  ∀ s s' : State, configOk s = true → s.coresBefore = [] → turnStarts s s' →
    Sys2Proof.core.run (nCores s) s = tick s'

/-- R302, R306: the configurations and host actions a model refuses, and that nothing else is refused. The
first two are the spec's decisions D28 and D31; that an action on a missing Core is refused is the
model's (log 14). -/
def Obligations.StepRefusesOnlyWhatTheSpecRefuses : Prop :=
  ∀ s : State,
    (step s = .refused .invalidConfiguration ↔ configOk s = false) ∧
    (step s = .refused .secondBootup ↔
      configOk s = true ∧ s.coresBefore = [] ∧ s.booted = true ∧ s.host.head? = some .bootup) ∧
    (step s = .refused .noSuchCore ↔ configOk s = true ∧ s.coresBefore = [] ∧
      ∃ i, nCores s ≤ i ∧ (s.host.head? = some (.activate i) ∨
        (∃ a, s.host.head? = some (.aluLoad1 i a)) ∨
        ∃ a b, s.host.head? = some (.aluLoad2 i a b))) ∧
    (∀ m, step s ≠ .refused (.notModelled m)) ∧ ∀ f, step s ≠ .fault f

/-! ### Reset and the host -/

/-- R50, R51, R53, R300: what reset leaves, in any configuration. That `PC` is 0 at reset and that empty RAM
is 0 is the spec's decision D25 (logs 6, 16). -/
def Obligations.ResetValues : Prop :=
  ∀ cfg : Config,
    (State.resetOf cfg).cpuAlive = false ∧ (State.resetOf cfg).ramCapacity = cfg.ramCapacity ∧
    (State.resetOf cfg).disk = cfg.disk ∧ nCores (State.resetOf cfg) = cfg.otherCores.length + 1 ∧
    (State.resetOf cfg).north.devices = cfg.northDevices ∧
    (State.resetOf cfg).south.devices = cfg.southDevices ∧
    (∀ a, readWord (State.resetOf cfg).ram a = 0) ∧
    ∀ c ∈ coreList (State.resetOf cfg), c.alive = false ∧ c.pc = 0 ∧
      c.sp = BitVec.ofNat 32 cfg.ramCapacity ∧ c.bp = BitVec.ofNat 32 cfg.ramCapacity ∧
      c.fault = none

/-- R303: `bootup` copies `min(100, DISK_CAPACITY)` words, marks the CPU and Core 0 alive, and touches
nothing else. The host's queue and the flag `booted` are the model's (logs 2, 14). -/
def Obligations.BootupCopiesBootloader : Prop :=
  ∀ s : State, configOk s = true → s.booted = false → s.coresBefore = [] → Memory.wf s.ram = true →
    ∀ later, s.host = .bootup :: later → ∃ t, step s = .next t ∧
      (∀ k w, k < 100 → s.disk[k]? = some w → readWord t.ram k = w) ∧
      (∀ k, 100 ≤ k ∨ s.disk.length ≤ k → readWord t.ram k = readWord s.ram k) ∧
      t = { s with
        ram := t.ram
        cpuAlive := true
        booted := true
        core := { s.core with alive := true }
        host := later }

/-- R286: `activate(i)` sets the alive flag of Core `i` and changes nothing else (the spec's decision D24;
log 14). -/
def Obligations.ActivateSetsAliveFlag : Prop :=
  ∀ (s : State) (i : Nat) (c : CoreState) (later : List HostAction), configOk s = true →
    s.coresBefore = [] → s.host = .activate i :: later → (coreList s)[i]? = some c →
    ∃ t, step s = .next t ∧ coreList t = (coreList s).set i { c with alive := true } ∧
      turnOf t = 0 ∧
      t = { s with core := t.core, coresAfter := t.coresAfter, host := later }

/-! ### Buses -/

/-- R71, R73: a read of a Bus returns the word of the last device in mount order whose range holds the
address, and leaves it in `bus_value`. Ranges with both ends are the spec's decision D26 (log 16); the
host action and its report are the model's form (log 13). -/
def Obligations.BusReadLastMatchWins : Prop :=
  ∀ (s : State) (b : BusId) (addr w : Word) (ds es : List Device) (d : Device),
    (getBus s b).devices = ds ++ d :: es →
    (∀ e ∈ ds, inRange e addr → fits e addr) → inRange d addr →
    d.mem[addr.toNat - d.floor.toNat]? = some w → (∀ e ∈ es, ¬inRange e addr) →
    hostStep (.busRead b addr) s =
      .next (withBus s b { devices := (getBus s b).devices, busValue := w } (.value w))

/-- R73: a read that no device claims returns the stale `bus_value`, and a write that none claims changes
nothing; neither is an error. The spec derives this (log 16); the host action is the model's form (log
13). -/
def Obligations.UnclaimedBusAccess : Prop :=
  ∀ (s : State) (b : BusId) (addr v : Word),
    (∀ e ∈ (getBus s b).devices, ¬inRange e addr) →
    hostStep (.busRead b addr) s =
      .next (withBus s b (getBus s b) (.value (getBus s b).busValue)) ∧
    hostStep (.busWrite b addr v) s = .next (withBus s b (getBus s b) .done)

/-- R72: a write reaches every device whose range holds the address, and changes neither `bus_value` nor the
other Bus. The host action and its report are the model's form (log 13). -/
def Obligations.BusWriteReachesAllMatches : Prop :=
  ∀ (s : State) (b : BusId) (addr v : Word) (ds : List Device),
    (getBus s b).devices = ds → (∀ e ∈ ds, inRange e addr → fits e addr) →
    ∃ ds' : List Device, ds'.length = ds.length ∧
      (∀ (k : Nat) (d : Device), ds[k]? = some d →
        (inRange d addr → ds'[k]? = some (stored d addr v)) ∧
          (¬inRange d addr → ds'[k]? = some d)) ∧
      hostStep (.busWrite b addr v) s =
        .next (withBus s b { devices := ds', busValue := (getBus s b).busValue } .done)

/-- R75: an access past the end of a device fails to its caller; no Core is halted, the failing device and
the later ones are as before, and the earlier ones keep their effect: a read leaves in `bus_value` the
word of the last of them whose range holds the address, or the old word if none does; a write leaves the
word stored in each that holds the address. It is the spec's decision D27 (log 16); the host action and
its report are the model's form (log 13). -/
def Obligations.BusAccessPastDeviceEnd : Prop :=
  ∀ (s : State) (b : BusId) (addr v : Word) (ds es : List Device) (d : Device),
    (getBus s b).devices = ds ++ d :: es →
    (∀ e ∈ ds, inRange e addr → fits e addr) → inRange d addr → ¬fits d addr →
    (∃ u : Word,
      (∀ (cs fs : List Device) (e : Device) (w : Word), ds = cs ++ e :: fs → inRange e addr →
        e.mem[addr.toNat - e.floor.toNat]? = some w → (∀ f ∈ fs, ¬inRange f addr) → u = w) ∧
      ((∀ e ∈ ds, ¬inRange e addr) → u = (getBus s b).busValue) ∧
      hostStep (.busRead b addr) s =
        .next (withBus s b { devices := (getBus s b).devices, busValue := u }
          (.deviceOutOfRange addr))) ∧
    ∃ ds' : List Device, ds'.length = ds.length ∧
      (∀ (k : Nat) (e : Device), ds[k]? = some e →
        (inRange e addr → ds'[k]? = some (stored e addr v)) ∧
          (¬inRange e addr → ds'[k]? = some e)) ∧
      hostStep (.busWrite b addr v) s =
        .next (withBus s b { devices := ds' ++ d :: es, busValue := (getBus s b).busValue }
          (.deviceOutOfRange addr))

/-! ### Invariants -/

/-- Every step keeps the invariant: RAM canonical and inside its capacity (R60, R63), the configuration
admitted (R302). The canonical form is the model's (logs 6, 7). -/
def Obligations.EveryStepKeepsInvariant : Prop :=
  ∀ s t : State, Inv s → step s = .next t → Inv t

/-- The state after reset has the invariant, in every admitted configuration (R53, R302). The configuration
of `State.reset` is the model's choice (log 5). -/
def Obligations.ResetHasInvariant : Prop :=
  Inv State.reset ∧ ∀ cfg : Config, cfg.valid = true → Inv (State.resetOf cfg)

/-- R21: no step changes a parameter. Parameters as fields of the state are the model's form (log 5). -/
def Obligations.EveryStepKeepsConfiguration : Prop :=
  ∀ s t : State, step s = .next t → sameConfiguration s t

/-- The protected slot `MODULO` of every Core is never written (R38, R39; the slot numbers are the spec's
decision D14, log 16). -/
def Obligations.ModuloSlotIsNeverWritten : Prop :=
  ∀ (s t : State) (i : Nat) (c : CoreState), step s = .next t → (coreList s)[i]? = some c →
    ∃ c', (coreList t)[i]? = some c' ∧ c'.p[6] = c.p[6]
end

