-- ==== Sys2Proof/Laws/State.lean ====
section
/-! SUPPORT. The small lemmas of the state: one per field per update, so that no later proof unfolds a
record update, and the read-after-write law of the register space (10_state.md R26). -/

namespace Sys2Proof.Machine

@[simp] theorem writeBack_cpuAlive (s : State) (v : Word) : (writeBack s v).cpuAlive = s.cpuAlive := rfl
@[simp] theorem writeBack_cflags (s : State) (v : Word) : (writeBack s v).cflags = s.cflags := rfl
@[simp] theorem writeBack_shared (s : State) (v : Word) : (writeBack s v).shared = s.shared := rfl
@[simp] theorem writeBack_ram (s : State) (v : Word) : (writeBack s v).ram = s.ram := rfl
@[simp] theorem writeBack_ramCapacity (s : State) (v : Word) : (writeBack s v).ramCapacity = s.ramCapacity := rfl
@[simp] theorem writeBack_disk (s : State) (v : Word) : (writeBack s v).disk = s.disk := rfl
@[simp] theorem writeBack_north (s : State) (v : Word) : (writeBack s v).north = s.north := rfl
@[simp] theorem writeBack_south (s : State) (v : Word) : (writeBack s v).south = s.south := rfl
@[simp] theorem writeBack_coresBefore (s : State) (v : Word) : (writeBack s v).coresBefore = s.coresBefore := rfl
@[simp] theorem writeBack_coresAfter (s : State) (v : Word) : (writeBack s v).coresAfter = s.coresAfter := rfl
@[simp] theorem writeBack_arithViaLoad (s : State) (v : Word) : (writeBack s v).arithViaLoad = s.arithViaLoad := rfl
@[simp] theorem writeBack_pixels (s : State) (v : Word) : (writeBack s v).pixels = s.pixels := rfl
@[simp] theorem writeBack_displayInputs (s : State) (v : Word) : (writeBack s v).displayInputs = s.displayInputs := rfl
@[simp] theorem writeBack_host (s : State) (v : Word) : (writeBack s v).host = s.host := rfl
@[simp] theorem writeBack_hostReport (s : State) (v : Word) : (writeBack s v).hostReport = s.hostReport := rfl
@[simp] theorem writeBack_booted (s : State) (v : Word) : (writeBack s v).booted = s.booted := rfl
@[simp] theorem writeBack_core_alive (s : State) (v : Word) : (writeBack s v).core.alive = s.core.alive := rfl
@[simp] theorem writeBack_core_flags (s : State) (v : Word) : (writeBack s v).core.flags = s.core.flags := rfl
@[simp] theorem writeBack_core_pc (s : State) (v : Word) : (writeBack s v).core.pc = v := rfl
@[simp] theorem writeBack_core_sp (s : State) (v : Word) : (writeBack s v).core.sp = s.core.sp := rfl
@[simp] theorem writeBack_core_bp (s : State) (v : Word) : (writeBack s v).core.bp = s.core.bp := rfl
@[simp] theorem writeBack_core_si (s : State) (v : Word) : (writeBack s v).core.si = s.core.si := rfl
@[simp] theorem writeBack_core_di (s : State) (v : Word) : (writeBack s v).core.di = s.core.di := rfl
@[simp] theorem writeBack_core_g (s : State) (v : Word) : (writeBack s v).core.g = s.core.g := rfl
@[simp] theorem writeBack_core_p (s : State) (v : Word) : (writeBack s v).core.p = s.core.p := rfl
@[simp] theorem writeBack_core_fault (s : State) (v : Word) : (writeBack s v).core.fault = s.core.fault := rfl

@[simp] theorem takeFault_cpuAlive (s : State) (x : FaultSignal) : (takeFault s x).cpuAlive = s.cpuAlive := rfl
@[simp] theorem takeFault_cflags (s : State) (x : FaultSignal) : (takeFault s x).cflags = s.cflags := rfl
@[simp] theorem takeFault_shared (s : State) (x : FaultSignal) : (takeFault s x).shared = s.shared := rfl
@[simp] theorem takeFault_ram (s : State) (x : FaultSignal) : (takeFault s x).ram = s.ram := rfl
@[simp] theorem takeFault_ramCapacity (s : State) (x : FaultSignal) : (takeFault s x).ramCapacity = s.ramCapacity := rfl
@[simp] theorem takeFault_disk (s : State) (x : FaultSignal) : (takeFault s x).disk = s.disk := rfl
@[simp] theorem takeFault_north (s : State) (x : FaultSignal) : (takeFault s x).north = s.north := rfl
@[simp] theorem takeFault_south (s : State) (x : FaultSignal) : (takeFault s x).south = s.south := rfl
@[simp] theorem takeFault_coresBefore (s : State) (x : FaultSignal) : (takeFault s x).coresBefore = s.coresBefore := rfl
@[simp] theorem takeFault_coresAfter (s : State) (x : FaultSignal) : (takeFault s x).coresAfter = s.coresAfter := rfl
@[simp] theorem takeFault_arithViaLoad (s : State) (x : FaultSignal) : (takeFault s x).arithViaLoad = s.arithViaLoad := rfl
@[simp] theorem takeFault_pixels (s : State) (x : FaultSignal) : (takeFault s x).pixels = s.pixels := rfl
@[simp] theorem takeFault_displayInputs (s : State) (x : FaultSignal) : (takeFault s x).displayInputs = s.displayInputs := rfl
@[simp] theorem takeFault_host (s : State) (x : FaultSignal) : (takeFault s x).host = s.host := rfl
@[simp] theorem takeFault_hostReport (s : State) (x : FaultSignal) : (takeFault s x).hostReport = s.hostReport := rfl
@[simp] theorem takeFault_booted (s : State) (x : FaultSignal) : (takeFault s x).booted = s.booted := rfl
@[simp] theorem takeFault_core_alive (s : State) (x : FaultSignal) : (takeFault s x).core.alive = false := rfl
@[simp] theorem takeFault_core_flags (s : State) (x : FaultSignal) : (takeFault s x).core.flags = s.core.flags := rfl
@[simp] theorem takeFault_core_pc (s : State) (x : FaultSignal) : (takeFault s x).core.pc = s.core.pc := rfl
@[simp] theorem takeFault_core_sp (s : State) (x : FaultSignal) : (takeFault s x).core.sp = s.core.sp := rfl
@[simp] theorem takeFault_core_bp (s : State) (x : FaultSignal) : (takeFault s x).core.bp = s.core.bp := rfl
@[simp] theorem takeFault_core_si (s : State) (x : FaultSignal) : (takeFault s x).core.si = s.core.si := rfl
@[simp] theorem takeFault_core_di (s : State) (x : FaultSignal) : (takeFault s x).core.di = s.core.di := rfl
@[simp] theorem takeFault_core_g (s : State) (x : FaultSignal) : (takeFault s x).core.g = s.core.g := rfl
@[simp] theorem takeFault_core_p (s : State) (x : FaultSignal) : (takeFault s x).core.p = s.core.p := rfl

/-- The record after a fault: the first one stays (60_exceptions.md R263). -/
theorem takeFault_core_fault (s : State) (x : FaultSignal) :
    (takeFault s x).core.fault =
      some (s.core.fault.getD { cause := x.cause, info := x.info, address := s.core.pc }) := by
  unfold takeFault
  cases s.core.fault <;> simp

@[simp] theorem callHalt_cflags (s : State) : (callHalt s).cflags = s.cflags := rfl
@[simp] theorem callHalt_shared (s : State) : (callHalt s).shared = s.shared := rfl
@[simp] theorem callHalt_ram (s : State) : (callHalt s).ram = s.ram := rfl
@[simp] theorem callHalt_ramCapacity (s : State) : (callHalt s).ramCapacity = s.ramCapacity := rfl
@[simp] theorem callHalt_disk (s : State) : (callHalt s).disk = s.disk := rfl
@[simp] theorem callHalt_north (s : State) : (callHalt s).north = s.north := rfl
@[simp] theorem callHalt_south (s : State) : (callHalt s).south = s.south := rfl
@[simp] theorem callHalt_arithViaLoad (s : State) : (callHalt s).arithViaLoad = s.arithViaLoad := rfl
@[simp] theorem callHalt_pixels (s : State) : (callHalt s).pixels = s.pixels := rfl
@[simp] theorem callHalt_displayInputs (s : State) : (callHalt s).displayInputs = s.displayInputs := rfl
@[simp] theorem callHalt_host (s : State) : (callHalt s).host = s.host := rfl
@[simp] theorem callHalt_hostReport (s : State) : (callHalt s).hostReport = s.hostReport := rfl
@[simp] theorem callHalt_booted (s : State) : (callHalt s).booted = s.booted := rfl
@[simp] theorem callHalt_cpuAlive (s : State) : (callHalt s).cpuAlive = false := rfl
@[simp] theorem callHalt_coresBefore (s : State) : (callHalt s).coresBefore = s.coresBefore.map killCore := rfl
@[simp] theorem callHalt_coresAfter (s : State) : (callHalt s).coresAfter = s.coresAfter.map killCore := rfl
@[simp] theorem callHalt_core_alive (s : State) : (callHalt s).core.alive = false := rfl
@[simp] theorem callHalt_core_flags (s : State) : (callHalt s).core.flags = s.core.flags := rfl
@[simp] theorem callHalt_core_pc (s : State) : (callHalt s).core.pc = s.core.pc := rfl
@[simp] theorem callHalt_core_sp (s : State) : (callHalt s).core.sp = s.core.sp := rfl
@[simp] theorem callHalt_core_bp (s : State) : (callHalt s).core.bp = s.core.bp := rfl
@[simp] theorem callHalt_core_si (s : State) : (callHalt s).core.si = s.core.si := rfl
@[simp] theorem callHalt_core_di (s : State) : (callHalt s).core.di = s.core.di := rfl
@[simp] theorem callHalt_core_g (s : State) : (callHalt s).core.g = s.core.g := rfl
@[simp] theorem callHalt_core_p (s : State) : (callHalt s).core.p = s.core.p := rfl
@[simp] theorem callHalt_core_fault (s : State) : (callHalt s).core.fault = s.core.fault := rfl
@[simp] theorem killCore_alive (c : CoreState) : (killCore c).alive = false := rfl
@[simp] theorem killCore_flags (c : CoreState) : (killCore c).flags = c.flags := rfl
@[simp] theorem killCore_pc (c : CoreState) : (killCore c).pc = c.pc := rfl
@[simp] theorem killCore_sp (c : CoreState) : (killCore c).sp = c.sp := rfl
@[simp] theorem killCore_bp (c : CoreState) : (killCore c).bp = c.bp := rfl
@[simp] theorem killCore_si (c : CoreState) : (killCore c).si = c.si := rfl
@[simp] theorem killCore_di (c : CoreState) : (killCore c).di = c.di := rfl
@[simp] theorem killCore_g (c : CoreState) : (killCore c).g = c.g := rfl
@[simp] theorem killCore_p (c : CoreState) : (killCore c).p = c.p := rfl
@[simp] theorem killCore_fault (c : CoreState) : (killCore c).fault = c.fault := rfl

@[simp] theorem setReg_cpuAlive (s : State) (r : Reg) (v : Word) : (setReg s r v).cpuAlive = s.cpuAlive := by
  cases r <;> rfl
@[simp] theorem setReg_ram (s : State) (r : Reg) (v : Word) : (setReg s r v).ram = s.ram := by
  cases r <;> rfl
@[simp] theorem setReg_ramCapacity (s : State) (r : Reg) (v : Word) : (setReg s r v).ramCapacity = s.ramCapacity := by
  cases r <;> rfl
@[simp] theorem setReg_disk (s : State) (r : Reg) (v : Word) : (setReg s r v).disk = s.disk := by
  cases r <;> rfl
@[simp] theorem setReg_north (s : State) (r : Reg) (v : Word) : (setReg s r v).north = s.north := by
  cases r <;> rfl
@[simp] theorem setReg_south (s : State) (r : Reg) (v : Word) : (setReg s r v).south = s.south := by
  cases r <;> rfl
@[simp] theorem setReg_coresBefore (s : State) (r : Reg) (v : Word) : (setReg s r v).coresBefore = s.coresBefore := by
  cases r <;> rfl
@[simp] theorem setReg_coresAfter (s : State) (r : Reg) (v : Word) : (setReg s r v).coresAfter = s.coresAfter := by
  cases r <;> rfl
@[simp] theorem setReg_arithViaLoad (s : State) (r : Reg) (v : Word) : (setReg s r v).arithViaLoad = s.arithViaLoad := by
  cases r <;> rfl
@[simp] theorem setReg_pixels (s : State) (r : Reg) (v : Word) : (setReg s r v).pixels = s.pixels := by
  cases r <;> rfl
@[simp] theorem setReg_displayInputs (s : State) (r : Reg) (v : Word) : (setReg s r v).displayInputs = s.displayInputs := by
  cases r <;> rfl
@[simp] theorem setReg_host (s : State) (r : Reg) (v : Word) : (setReg s r v).host = s.host := by
  cases r <;> rfl
@[simp] theorem setReg_hostReport (s : State) (r : Reg) (v : Word) : (setReg s r v).hostReport = s.hostReport := by
  cases r <;> rfl
@[simp] theorem setReg_booted (s : State) (r : Reg) (v : Word) : (setReg s r v).booted = s.booted := by
  cases r <;> rfl
@[simp] theorem setReg_core_alive (s : State) (r : Reg) (v : Word) :
    (setReg s r v).core.alive = s.core.alive := by
  cases r <;> rfl
@[simp] theorem setReg_core_p (s : State) (r : Reg) (v : Word) :
    (setReg s r v).core.p = s.core.p := by
  cases r <;> rfl
@[simp] theorem setReg_core_fault (s : State) (r : Reg) (v : Word) :
    (setReg s r v).core.fault = s.core.fault := by
  cases r <;> rfl

/-- Register read after register write: the written register reads the written word, every other one is
as before (10_state.md R24 to R26). -/
theorem getReg_setReg (s : State) (r q : Reg) (v : Word) :
    getReg (setReg s r v) q = if q = r then v else getReg s q := by
  cases r <;> cases q <;> simp [getReg, setReg, Vector.getElem_set, Fin.ext_iff, eq_comm]

@[simp] theorem getReg_setReg_same (s : State) (r : Reg) (v : Word) : getReg (setReg s r v) r = v := by
  simp [getReg_setReg]

theorem getReg_setReg_other (s : State) (r q : Reg) (v : Word) (h : q ≠ r) :
    getReg (setReg s r v) q = getReg s q := by
  simp [getReg_setReg, h]

/-- The write-back changes `PC` and no other register (30_encoding.md R104). -/
theorem getReg_writeBack (s : State) (next : Word) (q : Reg) :
    getReg (writeBack s next) q = if q = .pc then next else getReg s q := by
  cases q <;> simp [getReg]

theorem getReg_writeBack_other (s : State) (next : Word) (q : Reg) (h : q ≠ .pc) :
    getReg (writeBack s next) q = getReg s q := by
  simp [getReg_writeBack, h]

/-- Taking a fault changes no register (60_exceptions.md R262). -/
@[simp] theorem getReg_takeFault (s : State) (x : FaultSignal) (q : Reg) :
    getReg (takeFault s x) q = getReg s q := by
  cases q <;> simp [getReg]

/-- A halt changes no register (41_system.md R153). -/
@[simp] theorem getReg_callHalt (s : State) (q : Reg) : getReg (callHalt s) q = getReg s q := by
  cases q <;> simp [getReg]

/-! ### The register address map -/

/-- The address of a register, the inverse of the map (10_state.md R22). -/
def regAddress : Reg → Nat
  | .cflags => 0x00
  | .flags => 0x01
  | .pc => 0x02
  | .sp => 0x03
  | .bp => 0x04
  | .si => 0x05
  | .di => 0x06
  | .g k => 0x07 + k.val
  | .s k => 0x17 + k.val

theorem registerMap_length : registerMap.length = 27 := rfl

/-- An address above 0x1A names no register (10_state.md R28). -/
theorem regOfWord_eq_none_iff (w : Word) : regOfWord w = none ↔ 0x1A < w.toNat := by
  rw [regOfWord, List.getElem?_eq_none_iff, registerMap_length]
  omega

theorem regOfWord_regAddress (r : Reg) : regOfWord (BitVec.ofNat 32 (regAddress r)) = some r := by
  cases r with
  | g k => revert k; decide
  | s k => revert k; decide
  | _ => rfl

/-- The map names each register at one address (10_state.md R26). -/
theorem registerMap_nodup : registerMap.Nodup := by decide

theorem regOfWord_injective (v w : Word) (r : Reg) (hv : regOfWord v = some r)
    (hw : regOfWord w = some r) : v = w := by
  have h1 : v.toNat < registerMap.length := (List.getElem?_eq_some_iff.1 hv).1
  exact BitVec.eq_of_toNat_eq ((List.getElem?_inj h1 registerMap_nodup).1 (hv.trans hw.symm))

theorem resolveReg_of_some (w : Word) (r : Reg) (h : regOfWord w = some r) : resolveReg w = .ok r := by
  simp [resolveReg, h]

theorem resolveReg_of_none (w : Word) (h : regOfWord w = none) :
    resolveReg w = .error { cause := .addressOutOfRangeRegister, info := w } := by
  simp [resolveReg, h]

end Sys2Proof.Machine
end

