-- ==== Sys2Proof/Laws/Alu.lean ====
section
/-! SUPPORT. What each ALU primitive and the load protocol can do, said once (40_alu_unit.md). -/

namespace Sys2Proof.Machine

/-- All that `div_f` can do (40_alu_unit.md R124). -/
theorem divF_cases (a b : Word) :
    (b = 0 ∧ divF a b = .error { cause := .divideByZero, info := a }) ∨
      (b ≠ 0 ∧ divF a b = .ok (a / b, a % b)) := by
  by_cases hb : b = 0
  · exact .inl ⟨hb, by simp [divF, hb]⟩
  · refine .inr ⟨hb, ?_⟩
    have hpos : 0 < b.toNat := Nat.pos_of_ne_zero fun h => hb (BitVec.eq_of_toNat_eq (by simpa using h))
    have hle : a.toNat % b.toNat ≤ a.toNat := Nat.mod_le _ _
    have hquot : (a - a % b) / b = a / b := by
      apply BitVec.eq_of_toNat_eq
      have hsub : (a - a % b).toNat = a.toNat - a.toNat % b.toNat := by
        rw [BitVec.toNat_sub_of_le (by simpa [BitVec.le_def] using hle)]
        simp
      rw [BitVec.toNat_udiv, BitVec.toNat_udiv, hsub]
      have hdm := Nat.div_add_mod a.toNat b.toNat
      have : a.toNat - a.toNat % b.toNat = b.toNat * (a.toNat / b.toNat) := by omega
      rw [this, Nat.mul_div_cancel_left _ hpos]
    rw [divF, if_neg hb]
    exact congrArg (fun q => Except.ok (q, a % b)) hquot

/-- `xor`'s De Morgan construction is the exclusive or (40_alu_unit.md R130). -/
theorem aluXor_eq (a b : Word) : aluXor a b = a ^^^ b := by
  unfold aluXor
  ext i hi
  simp only [BitVec.getElem_and, BitVec.getElem_or, BitVec.getElem_not, BitVec.getElem_xor]
  cases a[i] <;> cases b[i] <;> rfl

/-- A left shift by less than the width (40_alu_unit.md R131). -/
theorem lshift_small (a n : Word) (h : n.toNat < 32) : lshift a n = a <<< n.toNat := by
  simp [lshift, h]

/-- A left shift by the width or more is the free value (45_shift.md R197). -/
theorem lshift_over (a n : Word) (h : 32 ≤ n.toNat) : lshift a n = shiftOver .left a n := by
  simp [lshift, Nat.not_lt.2 h]

/-- A right shift by less than the width (40_alu_unit.md R132). -/
theorem rshift_small (a n : Word) (h : n.toNat < 32) : rshift a n = a >>> n.toNat := by
  simp [rshift, h]

/-- A right shift by the width or more is the free value (45_shift.md R197). -/
theorem rshift_over (a n : Word) (h : 32 ≤ n.toNat) : rshift a n = shiftOver .right a n := by
  simp [rshift, Nat.not_lt.2 h]

/-- Every slot of the cache after a load (40_alu_unit.md R137). -/
theorem cachedResults_slot (p : Vector Word 13) (a b q r : Word) (k : Slot) :
    (cachedResults p a b q r)[slotIndex k] =
      match k with
      | .add => aluAdd a b
      | .subtract => aluSub a b
      | .multiply => aluMul a b
      | .divide => q
      | .remainder => r
      | .power => aluPow a b
      | .modulo => p[6]
      | .and => aluAnd a b
      | .or => aluOr a b
      | .nor => aluNor a b
      | .xor => aluXor a b
      | .notA => aluNot a
      | .notB => aluNot b := by
  cases k <;> rfl

/-- All that `load(a, b)` can do (40_alu_unit.md R137, R138). -/
theorem loadTwo_cases (c : CoreState) (a b : Word) :
    (b = 0 ∧ loadTwo c a b = .error { cause := .divideByZero, info := a }) ∨
      (b ≠ 0 ∧ loadTwo c a b =
        .ok { c with flags := compareTwo c.flags a b, p := cachedResults c.p a b (a / b) (a % b) }) := by
  rcases divF_cases a b with ⟨hb, h⟩ | ⟨hb, h⟩
  · exact .inl ⟨hb, by simp [loadTwo, h]⟩
  · exact .inr ⟨hb, by simp [loadTwo, h]⟩

/-- `load(a)` always succeeds (40_alu_unit.md R136). -/
theorem loadOne_eq (c : CoreState) (a : Word) :
    loadOne c a = .ok { c with
      flags := compareOne c.flags a
      p := cachedResults c.p a 0xFFFFFFFF (a / 0xFFFFFFFF) (a % 0xFFFFFFFF) } := by
  rcases divF_cases a 0xFFFFFFFF with ⟨hb, h⟩ | ⟨hb, h⟩
  · exact absurd hb (by decide)
  · rw [loadOne, h]

/-- The value of a two-operand operation other than a division by zero (44_arith_logic.md R170). -/
def aluValue (op : AluOp) (a b : Word) : Word :=
  match op with
  | .add => a + b
  | .sub => a - b
  | .mul => a * b
  | .div => a / b
  | .pow => a ^^^ b
  | .and => a &&& b
  | .or => a ||| b
  | .nor => ~~~a &&& ~~~b
  | .xor => a ^^^ b

/-- All that an ALU operation can do (44_arith_logic.md R170). -/
theorem aluDirect_cases (op : AluOp) (a b : Word) :
    (op = .div ∧ b = 0 ∧ aluDirect op a b = .error { cause := .divideByZero, info := a }) ∨
      ((op = .div → b ≠ 0) ∧ aluDirect op a b = .ok (aluValue op a b)) := by
  cases op with
  | div =>
    rcases divF_cases a b with ⟨hb, h⟩ | ⟨hb, h⟩
    · exact .inl ⟨rfl, hb, by simp [aluDirect, h]⟩
    · exact .inr ⟨fun _ => hb, by simp [aluDirect, h, aluValue]⟩
  | xor => exact .inr ⟨nofun, by simp [aluDirect, aluValue, aluXor_eq]⟩
  | _ => exact .inr ⟨nofun, rfl⟩

/-- After a load, the operation's slot holds its value (40_alu_unit.md R139, R140). -/
theorem getSlot_cachedResults (c : CoreState) (op : AluOp) (a b f : Word) :
    getSlot { c with flags := f, p := cachedResults c.p a b (a / b) (a % b) } (aluSlot op) =
      aluValue op a b := by
  cases op with
  | xor => exact aluXor_eq a b
  | _ => rfl

/-- All that an arithmetic opcode computes with `ARITH_VIA_LOAD = false` (40_alu_unit.md R139). -/
theorem aluCompute_direct_cases (op : AluOp) (c : CoreState) (a b : Word) :
    (op = .div ∧ b = 0 ∧
        aluCompute false op c a b = .error { cause := .divideByZero, info := a }) ∨
      ((op = .div → b ≠ 0) ∧ aluCompute false op c a b = .ok (c, aluValue op a b)) := by
  rcases aluDirect_cases op a b with ⟨ho, hb, h⟩ | ⟨hb, h⟩
  · exact .inl ⟨ho, hb, by simp [aluCompute, h]⟩
  · exact .inr ⟨hb, by simp [aluCompute, h]⟩

/-- All that an arithmetic opcode computes with `ARITH_VIA_LOAD = true` (40_alu_unit.md R139). -/
theorem aluCompute_load_cases (op : AluOp) (c : CoreState) (a b : Word) :
    (b = 0 ∧ aluCompute true op c a b = .error { cause := .divideByZero, info := a }) ∨
      (b ≠ 0 ∧ aluCompute true op c a b =
        .ok ({ c with
          flags := compareTwo c.flags a b
          p := cachedResults c.p a b (a / b) (a % b) }, aluValue op a b)) := by
  rcases loadTwo_cases c a b with ⟨hb, h⟩ | ⟨hb, h⟩
  · exact .inl ⟨hb, by simp [aluCompute, h]⟩
  · exact .inr ⟨hb, by simp [aluCompute, h, getSlot_cachedResults]⟩

/-- The result of an arithmetic opcode leaves every field of the Core but flags and slots. -/
theorem aluCompute_core (viaLoad : Bool) (op : AluOp) (c c' : CoreState) (a b v : Word)
    (h : aluCompute viaLoad op c a b = .ok (c', v)) :
    ∃ f p, c' = { c with flags := f, p := p } ∧ p[6] = c.p[6] := by
  cases viaLoad with
  | false =>
    rcases aluCompute_direct_cases op c a b with ⟨_, _, h'⟩ | ⟨_, h'⟩
    · rw [h'] at h
      cases h
    · rw [h'] at h
      cases h
      exact ⟨c.flags, c.p, rfl, rfl⟩
  | true =>
    rcases aluCompute_load_cases op c a b with ⟨_, h'⟩ | ⟨_, h'⟩
    · rw [h'] at h
      cases h
    · rw [h'] at h
      cases h
      exact ⟨_, _, rfl, rfl⟩

/-- All that `NOT_R` computes (44_arith_logic.md R189, 40_alu_unit.md R139). -/
theorem aluComputeNot_eq (viaLoad : Bool) (c : CoreState) (a : Word) :
    aluComputeNot viaLoad c a = .ok (if viaLoad then
      ({ c with
        flags := compareOne c.flags a
        p := cachedResults c.p a 0xFFFFFFFF (a / 0xFFFFFFFF) (a % 0xFFFFFFFF) }, ~~~a)
      else (c, ~~~a)) := by
  cases viaLoad with
  | false => rfl
  | true =>
    simp only [aluComputeNot, loadOne_eq, if_true]
    rfl

/-! ### Flags -/

/-- The flag register after a two-operand compare, by masks (40_alu_unit.md R135). -/
theorem compareTwo_eq (reg a b : Word) :
    compareTwo reg a b =
      0x80 ||| (if a.msb || b.msb then 0x10 else 0) ||| (if a = 0 ∨ b = 0 then 0x20 else 0) |||
        (if a = b then 0x01 else if b < a then 0x02 else 0x04) := by
  simp only [compareTwo, clearAllFlags, setFlagIf, setFlag, flagBit, Bool.or_eq_true, beq_iff_eq]
  split <;> split <;> split <;> (try split) <;> decide

/-- The flag register after a one-operand compare, by masks (40_alu_unit.md R134). -/
theorem compareOne_eq (reg a : Word) :
    compareOne reg a = if a.msb then 0x10 else if a = 0 then 0x20 else 0 := by
  simp only [compareOne, clearAllFlags, setFlag, flagBit]
  split
  · decide
  · split <;> decide

end Sys2Proof.Machine
end

