-- ==== Sys2Proof/Laws/Bus.lean ====
section
/-! SUPPORT. What a broadcast on a Bus can do, said once (20_memory.md R67 to R75). -/

namespace Sys2Proof.Machine

/-- A device claims exactly the addresses from its floor to its ceiling (R67). -/
theorem claims_iff (d : Device) (addr : Word) :
    claims d addr = true ↔ d.floor.toNat ≤ addr.toNat ∧ addr.toNat ≤ d.ceil.toNat := by
  simp [claims, BitVec.le_def]

/-- The local index of a claimed address is its distance from the floor (R67). -/
theorem localIndex_of_claims {d : Device} {addr : Word} (h : claims d addr = true) :
    localIndex d addr = addr.toNat - d.floor.toNat :=
  BitVec.toNat_sub_of_le (BitVec.le_def.2 ((claims_iff d addr).1 h).1)

/-! ### Reads -/

/-- One device of a read: it does not claim the address, or it holds a word there, or it fails (R68, R75). -/
theorem broadcastRead_cons (d : Device) (ds : List Device) (addr v : Word) :
    (claims d addr = false ∧ broadcastRead (d :: ds) addr v = broadcastRead ds addr v) ∨
      (claims d addr = true ∧ ∃ w, d.mem[localIndex d addr]? = some w ∧
        broadcastRead (d :: ds) addr v = broadcastRead ds addr w) ∨
      (claims d addr = true ∧ d.mem[localIndex d addr]? = none ∧
        broadcastRead (d :: ds) addr v = (v, true)) := by
  rw [broadcastRead]
  cases claims d addr with
  | false => exact .inl ⟨rfl, rfl⟩
  | true =>
    cases hw : d.mem[localIndex d addr]? with
    | some w => exact .inr (.inl ⟨rfl, w, rfl, rfl⟩)
    | none => exact .inr (.inr ⟨rfl, rfl, rfl⟩)

/-- A read that no device claims leaves the scratch word (R73). -/
theorem broadcastRead_unclaimed {ds : List Device} {addr : Word} (v : Word)
    (h : ∀ d ∈ ds, claims d addr = false) : broadcastRead ds addr v = (v, false) := by
  induction ds with
  | nil => rfl
  | cons d ds ih =>
    rw [broadcastRead, h d (List.mem_cons_self ..)]
    exact ih fun e he => h e (List.mem_cons_of_mem _ he)

/-- The devices before some point of the mount order act first; if none of them fails the broadcast goes on
with the scratch word they leave (R71). -/
theorem broadcastRead_append {ds : List Device} {addr v u : Word} (es : List Device)
    (h : broadcastRead ds addr v = (u, false)) :
    broadcastRead (ds ++ es) addr v = broadcastRead es addr u := by
  induction ds generalizing v with
  | nil => cases h; rfl
  | cons d ds ih =>
    rw [List.cons_append]
    rcases broadcastRead_cons d ds addr v with ⟨hc, e⟩ | ⟨hc, w, hw, e⟩ | ⟨_, _, e⟩
    · rw [broadcastRead, hc]; exact ih (e.symm.trans h)
    · rw [broadcastRead, hc, hw]; exact ih (e.symm.trans h)
    · rw [e] at h; cases h

/-- A read of devices that hold a word wherever they claim the address does not fail (R68). -/
theorem broadcastRead_ok {ds : List Device} {addr : Word} (v : Word)
    (h : ∀ d ∈ ds, claims d addr = true → localIndex d addr < d.mem.length) :
    ∃ u, broadcastRead ds addr v = (u, false) := by
  induction ds generalizing v with
  | nil => exact ⟨v, rfl⟩
  | cons d ds ih =>
    have ih := fun v => ih v fun e he => h e (List.mem_cons_of_mem _ he)
    rcases broadcastRead_cons d ds addr v with ⟨_, e⟩ | ⟨_, w, _, e⟩ | ⟨hc, hn, _⟩
    · exact e ▸ ih v
    · exact e ▸ ih w
    · have := h d (List.mem_cons_self ..) hc
      rw [List.getElem?_eq_none_iff] at hn
      omega

/-! ### Writes -/

/-- One device of a write: it does not claim the address, or it stores the word, or it fails (R69, R75). -/
theorem broadcastWrite_cons (d : Device) (ds : List Device) (addr v : Word) :
    (claims d addr = false ∧ broadcastWrite (d :: ds) addr v =
        (d :: (broadcastWrite ds addr v).1, (broadcastWrite ds addr v).2)) ∨
      (claims d addr = true ∧ localIndex d addr < d.mem.length ∧ broadcastWrite (d :: ds) addr v =
        ({ d with mem := d.mem.set (localIndex d addr) v } :: (broadcastWrite ds addr v).1,
          (broadcastWrite ds addr v).2)) ∨
      (claims d addr = true ∧ d.mem.length ≤ localIndex d addr ∧
        broadcastWrite (d :: ds) addr v = (d :: ds, true)) := by
  rw [broadcastWrite]
  cases claims d addr with
  | false => exact .inl ⟨rfl, rfl⟩
  | true =>
    by_cases hl : localIndex d addr < d.mem.length
    · exact .inr (.inl ⟨rfl, hl, by rw [if_pos rfl, if_pos hl]⟩)
    · exact .inr (.inr ⟨rfl, Nat.le_of_not_lt hl, by rw [if_pos rfl, if_neg hl]⟩)

/-- A write that no device claims changes nothing (R73). -/
theorem broadcastWrite_unclaimed {ds : List Device} {addr : Word} (v : Word)
    (h : ∀ d ∈ ds, claims d addr = false) : broadcastWrite ds addr v = (ds, false) := by
  induction ds with
  | nil => rfl
  | cons d ds ih =>
    have ih := ih fun e he => h e (List.mem_cons_of_mem _ he)
    rcases broadcastWrite_cons d ds addr v with ⟨_, e⟩ | ⟨hc, _⟩ | ⟨hc, _⟩
    · rw [e, ih]
    all_goals rw [h d (List.mem_cons_self ..)] at hc; cases hc

/-- The devices before some point of the mount order act first; if none of them fails the broadcast goes on
to the others (R72). -/
theorem broadcastWrite_append {ds ds' : List Device} {addr v : Word} (es : List Device)
    (h : broadcastWrite ds addr v = (ds', false)) :
    broadcastWrite (ds ++ es) addr v =
      (ds' ++ (broadcastWrite es addr v).1, (broadcastWrite es addr v).2) := by
  induction ds generalizing ds' with
  | nil => cases h; rfl
  | cons d ds ih =>
    have split : broadcastWrite ds addr v =
        ((broadcastWrite ds addr v).1, (broadcastWrite ds addr v).2) := rfl
    rw [List.cons_append]
    rcases broadcastWrite_cons d ds addr v with ⟨hc, e⟩ | ⟨hc, hl, e⟩ | ⟨_, _, e⟩ <;> rw [e] at h
    · obtain ⟨rfl, h2⟩ := Prod.mk.inj h
      rw [broadcastWrite, hc, ih (split.trans (congrArg _ h2))]; rfl
    · obtain ⟨rfl, h2⟩ := Prod.mk.inj h
      rw [broadcastWrite, hc, if_pos rfl, if_pos hl, ih (split.trans (congrArg _ h2))]; rfl
    · cases h

end Sys2Proof.Machine
end

