-- ==== Sys2Proof/Laws/Memory.lean ====
section
/-! SUPPORT. The laws of RAM: read after write, and that every operation keeps the canonical form
(20_memory.md R61 to R63). -/

namespace Sys2Proof.Machine

/-! ### The canonical form -/

/-- The canonical form says: addresses strictly rising, no entry equal to the unlisted word. -/
theorem Memory.wf_iff (m : Memory) :
    Memory.wf m = true ↔
      m.Pairwise (fun x y => x.1 < y.1) ∧ ∀ cell ∈ m, cell.2 ≠ unlistedWord := by
  induction m with
  | nil => simp [Memory.wf]
  | cons x rest ih =>
    obtain ⟨a, v⟩ := x
    cases rest with
    | nil => simp [Memory.wf]
    | cons y rest =>
      obtain ⟨b, w⟩ := y
      simp only [Memory.wf, Bool.and_eq_true, bne_iff_ne, decide_eq_true_eq, ih, ne_eq,
        List.pairwise_cons, List.mem_cons, forall_eq_or_imp]
      constructor
      · rintro ⟨⟨hv, hab⟩, ⟨hb, hp⟩, hw, hall⟩
        exact ⟨⟨⟨hab, fun c hc => lt_trans hab (hb c hc)⟩, hb, hp⟩, hv, hw, hall⟩
      · rintro ⟨⟨⟨hab, _⟩, hb, hp⟩, hv, hw, hall⟩
        exact ⟨⟨hv, hab⟩, ⟨hb, hp⟩, hw, hall⟩

/-- The addresses listed after a write are those listed before and the written one. -/
theorem mem_writeWord (m : Memory) (a : Nat) (v : Word) (c : MemCell) (h : c ∈ writeWord m a v) :
    c = (a, v) ∧ v ≠ unlistedWord ∨ c ∈ m := by
  induction m with
  | nil =>
    unfold writeWord at h
    split at h <;> simp_all
  | cons x rest ih =>
    obtain ⟨b, w⟩ := x
    simp only [writeWord] at h
    split at h
    · split at h
      · exact .inr h
      · rename_i hv
        rcases List.mem_cons.1 h with h | h
        · exact .inl ⟨h, hv⟩
        · exact .inr h
    · split at h
      · split at h
        · exact .inr (List.mem_cons_of_mem _ h)
        · rename_i hv
          rcases List.mem_cons.1 h with h | h
          · exact .inl ⟨h, hv⟩
          · exact .inr (List.mem_cons_of_mem _ h)
      · rcases List.mem_cons.1 h with h | h
        · exact .inr (h ▸ List.mem_cons_self)
        · rcases ih h with h | h
          · exact .inl h
          · exact .inr (List.mem_cons_of_mem _ h)

/-- A write keeps the canonical form. -/
theorem writeWord_wf (m : Memory) (a : Nat) (v : Word) (h : Memory.wf m = true) :
    Memory.wf (writeWord m a v) = true := by
  rw [Memory.wf_iff] at h ⊢
  refine ⟨?_, fun c hc => ?_⟩
  · obtain ⟨hp, -⟩ := h
    induction m with
    | nil =>
      unfold writeWord
      split <;> simp
    | cons x rest ih =>
      obtain ⟨b, w⟩ := x
      obtain ⟨hb, hrest⟩ := List.pairwise_cons.1 hp
      simp only [writeWord]
      split
      · rename_i hab
        split
        · exact hp
        · refine List.pairwise_cons.2 ⟨fun c hc => ?_, hp⟩
          rcases List.mem_cons.1 hc with rfl | hc
          · exact hab
          · exact lt_trans hab (hb c hc)
      · split
        · rename_i hab
          split
          · exact hrest
          · exact List.pairwise_cons.2 ⟨fun c hc => hab ▸ hb c hc, hrest⟩
        · rename_i h1 h2
          refine List.pairwise_cons.2 ⟨fun c hc => ?_, ih hrest⟩
          rcases mem_writeWord rest a v c hc with ⟨rfl, -⟩ | hc
          · simp only; omega
          · exact hb c hc
  · rcases mem_writeWord m a v c hc with ⟨rfl, hv⟩ | hc
    · exact hv
    · exact h.2 c hc

/-- Writing several words keeps the canonical form. -/
theorem writeWords_wf (vs : List Word) (m : Memory) (a : Nat) (h : Memory.wf m = true) :
    Memory.wf (writeWords m a vs) = true := by
  induction vs generalizing m a with
  | nil => exact h
  | cons v vs ih => exact ih _ _ (writeWord_wf m a v h)

/-! ### Read after write -/

/-- An address below every listed one reads as unlisted. -/
theorem readWord_below (m : Memory) (a : Nat) (h : ∀ c ∈ m, a < c.1) : readWord m a = unlistedWord := by
  induction m with
  | nil => rfl
  | cons x rest ih =>
    obtain ⟨b, w⟩ := x
    have hb : a < b := h (b, w) List.mem_cons_self
    have hne : b ≠ a := by omega
    simp only [readWord, hne, if_false]
    exact ih fun c hc => h c (List.mem_cons_of_mem _ hc)

/-- A read after a write gives the written word at its address and leaves every other address alone. -/
theorem readWord_writeWord (m : Memory) (a b : Nat) (v : Word) (h : Memory.wf m = true) :
    readWord (writeWord m a v) b = if b = a then v else readWord m b := by
  have hp := ((Memory.wf_iff m).1 h).1
  clear h
  induction m with
  | nil =>
    simp only [writeWord]
    split
    · rename_i hv
      simp [readWord, hv]
    · simp only [readWord]
      split <;> split <;> simp_all
  | cons x rest ih =>
    obtain ⟨c, w⟩ := x
    obtain ⟨hc, hrest⟩ := List.pairwise_cons.1 hp
    have hbelow : ∀ k, k ≤ c → readWord rest k = unlistedWord := fun k hk =>
      readWord_below rest k fun d hd => lt_of_le_of_lt hk (hc d hd)
    simp only [writeWord]
    split
    · rename_i hac
      split
      · rename_i hv
        split
        · rename_i hba
          subst hba hv
          have : c ≠ b := by omega
          simp [readWord, this, hbelow b (by omega)]
        · rfl
      · by_cases hba : b = a
        · simp [readWord, hba]
        · have : a ≠ b := fun e => hba e.symm
          simp [readWord, hba, this]
    · split
      · rename_i hac
        subst hac
        split
        · rename_i hv
          by_cases hba : b = a
          · subst hba
            simp [hv, hbelow b le_rfl]
          · have : a ≠ b := fun e => hba e.symm
            simp [readWord, hba, this]
        · by_cases hba : b = a
          · simp [readWord, hba]
          · have : a ≠ b := fun e => hba e.symm
            simp [readWord, hba, this]
      · rename_i h1 h2
        by_cases hcb : c = b
        · have hba : b ≠ a := by omega
          simp [readWord, hcb, hba]
        · simp only [readWord, hcb, if_false]
          exact ih hrest

/-- After writing several words, an address inside them reads its word and every other one is unchanged. -/
theorem readWord_writeWords (vs : List Word) (m : Memory) (a b : Nat) (h : Memory.wf m = true) :
    readWord (writeWords m a vs) b =
      if a ≤ b then (vs[b - a]?).getD (readWord m b) else readWord m b := by
  induction vs generalizing m a with
  | nil => simp [writeWords]
  | cons v vs ih =>
    rw [writeWords, ih _ _ (writeWord_wf m a v h), readWord_writeWord m a b v h]
    by_cases hab : a ≤ b
    · by_cases hba : b = a
      · subst hba
        simp
      · have h1 : a + 1 ≤ b := by omega
        have h2 : b - a = (b - (a + 1)) + 1 := by omega
        simp [hab, hba, h1, h2]
    · have h1 : ¬a + 1 ≤ b := by omega
      have hba : b ≠ a := by omega
      simp [hab, h1, hba]

/-! ### `MemRead` and `MemWrite` -/

theorem memRead_inRange (s : State) (a : Word) (h : a.toNat < s.ramCapacity) :
    memRead s a = .ok (readWord s.ram a.toNat) := by
  simp [memRead, Nat.not_le.2 h]

theorem memRead_outOfRange (s : State) (a : Word) (h : s.ramCapacity ≤ a.toNat) :
    memRead s a = .error { cause := .addressOutOfRangeMemory, info := a } := by
  simp [memRead, h]

theorem memWrite_inRange (s : State) (a v : Word) (h : a.toNat < s.ramCapacity) :
    memWrite s a v = .ok { s with ram := writeWord s.ram a.toNat v } := by
  simp [memWrite, Nat.not_le.2 h]

theorem memWrite_outOfRange (s : State) (a v : Word) (h : s.ramCapacity ≤ a.toNat) :
    memWrite s a v = .error { cause := .addressOutOfRangeMemory, info := a } := by
  simp [memWrite, h]

/-- All that `MemRead` can do (20_memory.md R62). -/
theorem memRead_cases (s : State) (a : Word) :
    (a.toNat < s.ramCapacity ∧ memRead s a = .ok (readWord s.ram a.toNat)) ∨
      (s.ramCapacity ≤ a.toNat ∧
        memRead s a = .error { cause := .addressOutOfRangeMemory, info := a }) := by
  rcases Nat.lt_or_ge a.toNat s.ramCapacity with h | h
  · exact .inl ⟨h, memRead_inRange s a h⟩
  · exact .inr ⟨h, memRead_outOfRange s a h⟩

/-- All that `MemWrite` can do (20_memory.md R63). -/
theorem memWrite_cases (s : State) (a v : Word) :
    (a.toNat < s.ramCapacity ∧
        memWrite s a v = .ok { s with ram := writeWord s.ram a.toNat v }) ∨
      (s.ramCapacity ≤ a.toNat ∧
        memWrite s a v = .error { cause := .addressOutOfRangeMemory, info := a }) := by
  rcases Nat.lt_or_ge a.toNat s.ramCapacity with h | h
  · exact .inl ⟨h, memWrite_inRange s a v h⟩
  · exact .inr ⟨h, memWrite_outOfRange s a v h⟩

/-- A write inside the capacity keeps the listed addresses inside it. -/
theorem writeWord_inRange (m : Memory) (a cap : Nat) (v : Word) (ha : a < cap)
    (h : ∀ c ∈ m, c.1 < cap) : ∀ c ∈ writeWord m a v, c.1 < cap := by
  intro c hc
  rcases mem_writeWord m a v c hc with ⟨rfl, -⟩ | hc
  · exact ha
  · exact h c hc

theorem writeWords_inRange (vs : List Word) (m : Memory) (a cap : Nat) (ha : a + vs.length ≤ cap)
    (h : ∀ c ∈ m, c.1 < cap) : ∀ c ∈ writeWords m a vs, c.1 < cap := by
  induction vs generalizing m a with
  | nil => exact h
  | cons v vs ih =>
    have hlen : a + (vs.length + 1) ≤ cap := by simpa using ha
    exact ih _ _ (by omega) (writeWord_inRange m a cap v (by omega) h)

/-- The memory after reset has the canonical form. -/
theorem reset_ram_wf (cfg : Config) : Memory.wf (State.resetOf cfg).ram = true := rfl

end Sys2Proof.Machine
end

