-- ==== Sys2Proof/Laws/Ops.lean ====
section
/-! SUPPORT. What each shared operation can do, said once: fault taking, operand resolution, the ends of
an instruction, the stack, the family skeletons, the interrupt handler. -/

namespace Sys2Proof.Machine

/-! ### Results -/

@[simp] theorem orFault_ok {α : Type} (s : State) (a : α) (k : α → Result) :
    orFault s (.ok a) k = k a := rfl

@[simp] theorem orFault_error {α : Type} (s : State) (f : FaultSignal) (k : α → Result) :
    orFault s (.error f) k = .next (takeFault s f) := rfl

/-- All that `orFault` can do, when it answers a next state (60_exceptions.md R262). -/
theorem orFault_next {α : Type} {s t : State} {x : Except FaultSignal α} {k : α → Result}
    (h : orFault s x k = .next t) :
    (∃ a, x = .ok a ∧ k a = .next t) ∨ ∃ f, x = .error f ∧ t = takeFault s f := by
  cases x with
  | ok a => exact .inl ⟨a, rfl, h⟩
  | error f =>
    cases h
    exact .inr ⟨f, rfl, rfl⟩

@[simp] theorem retire_next (address words : Word) (s t : State) :
    retire address words s = .next t ↔ t = writeBack s (address + words) := by
  simp [retire, eq_comm]

@[simp] theorem jumpTo_next (target : Word) (s t : State) :
    jumpTo target s = .next t ↔ t = writeBack s target := by
  simp [jumpTo, eq_comm]

/-! ### Operands -/

theorem withReg_some (s : State) (w : Word) (r : Reg) (k : Reg → Result) (h : regOfWord w = some r) :
    withReg s w k = k r := by
  simp [withReg, resolveReg_of_some w r h]

theorem withReg_none (s : State) (w : Word) (k : Reg → Result) (h : regOfWord w = none) :
    withReg s w k =
      .next (takeFault s { cause := .addressOutOfRangeRegister, info := w }) := by
  simp [withReg, resolveReg_of_none w h]

/-- All that one register operand can do (10_state.md R28). -/
theorem withReg_cases (s : State) (w : Word) (k : Reg → Result) :
    (∃ r, regOfWord w = some r ∧ withReg s w k = k r) ∨
      (0x1A < w.toNat ∧ withReg s w k =
        .next (takeFault s { cause := .addressOutOfRangeRegister, info := w })) := by
  cases h : regOfWord w with
  | some r => exact .inl ⟨r, rfl, withReg_some s w r k h⟩
  | none => exact .inr ⟨(regOfWord_eq_none_iff w).1 h, withReg_none s w k h⟩

theorem withRegs_some (s : State) (v w : Word) (r q : Reg) (k : Reg → Reg → Result)
    (hv : regOfWord v = some r) (hw : regOfWord w = some q) : withRegs s v w k = k r q := by
  rw [withRegs, withReg_some s v r _ hv, withReg_some s w q _ hw]

/-- The first operand is validated first (30_encoding.md R103). -/
theorem withRegs_none_left (s : State) (v w : Word) (k : Reg → Reg → Result) (h : regOfWord v = none) :
    withRegs s v w k =
      .next (takeFault s { cause := .addressOutOfRangeRegister, info := v }) :=
  withReg_none s v _ h

theorem withRegs_none_right (s : State) (v w : Word) (r : Reg) (k : Reg → Reg → Result)
    (hv : regOfWord v = some r) (hw : regOfWord w = none) :
    withRegs s v w k =
      .next (takeFault s { cause := .addressOutOfRangeRegister, info := w }) := by
  rw [withRegs, withReg_some s v r _ hv, withReg_none s w _ hw]

/-! ### The stack -/

/-- All that a push can do (46_control.md R210). -/
theorem stackPush_cases (s : State) (v : Word) :
    (s.core.sp.toNat < s.ramCapacity ∧ stackPush s v = .ok { s with
        ram := writeWord s.ram s.core.sp.toNat v
        core := { s.core with sp := s.core.sp - 1 } }) ∨
      (s.ramCapacity ≤ s.core.sp.toNat ∧
        stackPush s v = .error { cause := .addressOutOfRangeMemory, info := s.core.sp }) := by
  rcases memWrite_cases s s.core.sp v with ⟨h, e⟩ | ⟨h, e⟩
  · exact .inl ⟨h, by simp [stackPush, e]⟩
  · exact .inr ⟨h, by simp [stackPush, e]⟩

/-- All that a pop can do (46_control.md R211). -/
theorem stackPop_cases (s : State) :
    (s.core.bp ≤ s.core.sp ∧ stackPop s = .ok (0, s)) ∨
      (s.core.sp < s.core.bp ∧ (s.core.sp + 1).toNat < s.ramCapacity ∧
        stackPop s = .ok (readWord s.ram (s.core.sp + 1).toNat,
          { s with core := { s.core with sp := s.core.sp + 1 } })) ∨
      (s.core.sp < s.core.bp ∧ s.ramCapacity ≤ (s.core.sp + 1).toNat ∧
        stackPop s = .error { cause := .addressOutOfRangeMemory, info := s.core.sp + 1 }) := by
  by_cases hle : s.core.bp ≤ s.core.sp
  · exact .inl ⟨hle, by simp [stackPop, hle]⟩
  · have hlt : s.core.sp < s.core.bp := BitVec.not_le.1 hle
    rcases memRead_cases s (s.core.sp + 1) with ⟨h, e⟩ | ⟨h, e⟩
    · exact .inr (.inl ⟨hlt, h, by rw [stackPop, if_neg hle, e]⟩)
    · exact .inr (.inr ⟨hlt, h, by rw [stackPop, if_neg hle, e]⟩)

/-! ### Family skeletons, when they complete -/

theorem arithRl_direct (op : AluOp) (d v : Word) (r : Reg) (s : State) (hd : regOfWord d = some r)
    (hl : s.arithViaLoad = false) (hz : op = .div → v ≠ 0) :
    arithRl op d v s =
      .next (writeBack (setReg s r (aluValue op (getReg s r) v)) (s.core.pc + 3)) := by
  rw [arithRl, withReg_some s d r _ hd, arithInto]
  rcases aluCompute_direct_cases op s.core (getReg s r) v with ⟨ho, hv, _⟩ | ⟨_, h⟩
  · exact absurd hv (hz ho)
  · rw [← hl] at h
    rw [h]
    rfl

theorem arithRr_direct (op : AluOp) (d w : Word) (r q : Reg) (s : State) (hd : regOfWord d = some r)
    (hw : regOfWord w = some q) (hl : s.arithViaLoad = false) (hz : op = .div → getReg s q ≠ 0) :
    arithRr op d w s =
      .next (writeBack (setReg s r (aluValue op (getReg s r) (getReg s q))) (s.core.pc + 3)) := by
  rw [arithRr, withRegs_some s d w r q _ hd hw, arithInto]
  rcases aluCompute_direct_cases op s.core (getReg s r) (getReg s q) with ⟨ho, hv, _⟩ | ⟨_, h⟩
  · exact absurd hv (hz ho)
  · rw [← hl] at h
    rw [h]
    rfl

/-- The Core after the load of a pair whose second part is not zero (40_alu_unit.md R137). -/
def loadedCore (c : CoreState) (a b : Word) : CoreState :=
  { c with flags := compareTwo c.flags a b, p := cachedResults c.p a b (a / b) (a % b) }

theorem arithRl_viaLoad (op : AluOp) (d v : Word) (r : Reg) (s : State) (hd : regOfWord d = some r)
    (hl : s.arithViaLoad = true) (hz : v ≠ 0) :
    arithRl op d v s =
      .next (writeBack (setReg { s with core := loadedCore s.core (getReg s r) v } r
        (aluValue op (getReg s r) v)) (s.core.pc + 3)) := by
  rw [arithRl, withReg_some s d r _ hd, arithInto]
  rcases aluCompute_load_cases op s.core (getReg s r) v with ⟨hv, _⟩ | ⟨_, h⟩
  · exact absurd hv hz
  · rw [← hl] at h
    rw [h]
    rfl

theorem arithRr_viaLoad (op : AluOp) (d w : Word) (r q : Reg) (s : State) (hd : regOfWord d = some r)
    (hw : regOfWord w = some q) (hl : s.arithViaLoad = true) (hz : getReg s q ≠ 0) :
    arithRr op d w s =
      .next (writeBack (setReg { s with core := loadedCore s.core (getReg s r) (getReg s q) } r
        (aluValue op (getReg s r) (getReg s q))) (s.core.pc + 3)) := by
  rw [arithRr, withRegs_some s d w r q _ hd hw, arithInto]
  rcases aluCompute_load_cases op s.core (getReg s r) (getReg s q) with ⟨hv, _⟩ | ⟨_, h⟩
  · exact absurd hv hz
  · rw [← hl] at h
    rw [h]
    rfl

/-- A division by a zero literal, or any arithmetic by zero through the load protocol, takes the fault
(44_arith_logic.md R177, 40_alu_unit.md R139). -/
theorem arithInto_zero (op : AluOp) (r : Reg) (a : Word) (s : State)
    (h : s.arithViaLoad = true ∨ op = .div) :
    arithInto op r a 0 s = .next (takeFault s { cause := .divideByZero, info := a }) := by
  have hc : aluCompute s.arithViaLoad op s.core a 0 =
      .error { cause := .divideByZero, info := a } := by
    cases hl : s.arithViaLoad with
    | true =>
      rcases aluCompute_load_cases op s.core a 0 with ⟨_, e⟩ | ⟨hz, _⟩
      · exact e
      · exact absurd rfl hz
    | false =>
      have ho : op = .div := by simpa [hl] using h
      rcases aluCompute_direct_cases op s.core a 0 with ⟨_, _, e⟩ | ⟨hz, _⟩
      · exact e
      · exact absurd rfl (hz ho)
  rw [arithInto, hc, orFault_error]

theorem branchTo_eq (cond : Word → Bool) (target : Word) (s : State) :
    branchTo cond target s =
      .next (writeBack s (if cond s.core.flags then target else s.core.pc + 2)) := by
  unfold branchTo
  split <;> rfl

theorem callTo_inRange (target : Word) (s : State) (h : s.core.sp.toNat < s.ramCapacity) :
    callTo target s = .next (writeBack { s with
      ram := writeWord s.ram s.core.sp.toNat (s.core.pc + 2)
      core := { s.core with sp := s.core.sp - 1 } } target) := by
  rcases stackPush_cases s (s.core.pc + 2) with ⟨_, e⟩ | ⟨h', _⟩
  · rw [callTo, e, orFault_ok, jumpTo]
  · exact absurd h (Nat.not_lt.2 h')

theorem loadInto_inRange (r : Reg) (a : Word) (s : State) (h : a.toNat < s.ramCapacity) :
    loadInto r a s = .next (writeBack (setReg s r (readWord s.ram a.toNat)) (s.core.pc + 3)) := by
  simp [loadInto, memRead_inRange s a h, retire]

theorem storeAt_inRange (a v : Word) (s : State) (h : a.toNat < s.ramCapacity) :
    storeAt a v s =
      .next (writeBack { s with ram := writeWord s.ram a.toNat v } (s.core.pc + 3)) := by
  simp [storeAt, memWrite_inRange s a v h, retire]

theorem callTo_outOfRange (target : Word) (s : State) (h : s.ramCapacity ≤ s.core.sp.toNat) :
    callTo target s =
      .next (takeFault s { cause := .addressOutOfRangeMemory, info := s.core.sp }) := by
  rcases stackPush_cases s (s.core.pc + 2) with ⟨h', _⟩ | ⟨_, e⟩
  · exact absurd h (Nat.not_le.2 h')
  · rw [callTo, e, orFault_error]

theorem loadInto_outOfRange (r : Reg) (a : Word) (s : State) (h : s.ramCapacity ≤ a.toNat) :
    loadInto r a s = .next (takeFault s { cause := .addressOutOfRangeMemory, info := a }) := by
  simp [loadInto, memRead_outOfRange s a h]

theorem storeAt_outOfRange (a v : Word) (s : State) (h : s.ramCapacity ≤ a.toNat) :
    storeAt a v s = .next (takeFault s { cause := .addressOutOfRangeMemory, info := a }) := by
  simp [storeAt, memWrite_outOfRange s a v h]

/-! ### Interrupts -/

/-- All that an interrupt can do (60_exceptions.md R271 to R275). -/
theorem callInterrupt_cases (s : State) (vector : Word) :
    (¬(vector = 0x10 ∧ (getReg s (.g 0) = 1 ∨ getReg s (.g 0) = 3)) ∧ callInterrupt s vector = s) ∨
      (vector = 0x10 ∧ getReg s (.g 0) = 1 ∧ callInterrupt s vector = setPixelTask s) ∨
      (vector = 0x10 ∧ getReg s (.g 0) = 3 ∧ callInterrupt s vector = resolutionTask s) := by
  by_cases hv : vector = 0x10
  · by_cases h1 : getReg s (.g 0) = 1
    · exact .inr (.inl ⟨hv, h1, by simp only [callInterrupt, hv, displayHandler, h1, if_true]⟩)
    · by_cases h3 : getReg s (.g 0) = 3
      · refine .inr (.inr ⟨hv, h3, ?_⟩)
        have : ¬(3 : Word) = 1 := by decide
        simp only [callInterrupt, hv, displayHandler, h3, this, if_true, if_false]
      · refine .inl ⟨fun h => h.2.elim h1 h3, ?_⟩
        simp only [callInterrupt, hv, displayHandler, h1, h3, if_true, if_false]
  · exact .inl ⟨fun h => hv h.1, by simp only [callInterrupt, hv, if_false]⟩

end Sys2Proof.Machine
end

