-- ==== Sys2Proof/Laws/PerInstr.lean ====
section
/-! SUPPORT. Facts about every instruction as syntax, one lemma per constructor, and the decoder's view of
unknown opcodes. -/

namespace Sys2Proof

/-- An opcode word outside the table calls for no operand and is the unknown instruction
(30_encoding.md R99, R100). -/
theorem shapeOf_unknown (w : Word) (h : isUnknownOpword w = true) : shapeOf w = .words1 (.unknown w) := by
  have hw : w = BitVec.ofNat 32 w.toNat := by simp
  unfold shapeOf
  split
  all_goals first
    | rfl
    | (rename_i hn
       rw [hn] at hw
       subst hw
       exact absurd h (by decide))

namespace Laws.EncodedForm

/-- A well-formed instruction is encoded as an opcode word and as many operand words as the opcode calls
for (30_encoding.md R90, R92). -/
def Statement (i : Instr) : Prop :=
  i.wf = true → ∃ op ops, encode i = op :: ops ∧ (shapeOf op).operandCount = ops.length

theorem nop : Statement .nop := fun _ => ⟨_, _, rfl, rfl⟩

theorem intL (vector : Word) : Statement (.intL vector) := fun _ => ⟨_, _, rfl, rfl⟩

theorem intR (vector : Word) : Statement (.intR vector) := fun _ => ⟨_, _, rfl, rfl⟩

theorem movRl (dst value : Word) : Statement (.movRl dst value) := fun _ => ⟨_, _, rfl, rfl⟩

theorem movRr (dst src : Word) : Statement (.movRr dst src) := fun _ => ⟨_, _, rfl, rfl⟩

theorem compLl (a b : Word) : Statement (.compLl a b) := fun _ => ⟨_, _, rfl, rfl⟩

theorem compRl (a b : Word) : Statement (.compRl a b) := fun _ => ⟨_, _, rfl, rfl⟩

theorem compRr (a b : Word) : Statement (.compRr a b) := fun _ => ⟨_, _, rfl, rfl⟩

theorem jeqL (target : Word) : Statement (.jeqL target) := fun _ => ⟨_, _, rfl, rfl⟩

theorem jeqR (target : Word) : Statement (.jeqR target) := fun _ => ⟨_, _, rfl, rfl⟩

theorem jltL (target : Word) : Statement (.jltL target) := fun _ => ⟨_, _, rfl, rfl⟩

theorem jltR (target : Word) : Statement (.jltR target) := fun _ => ⟨_, _, rfl, rfl⟩

theorem jgtL (target : Word) : Statement (.jgtL target) := fun _ => ⟨_, _, rfl, rfl⟩

theorem jgtR (target : Word) : Statement (.jgtR target) := fun _ => ⟨_, _, rfl, rfl⟩

theorem jneqL (target : Word) : Statement (.jneqL target) := fun _ => ⟨_, _, rfl, rfl⟩

theorem jneqR (target : Word) : Statement (.jneqR target) := fun _ => ⟨_, _, rfl, rfl⟩

theorem addRl (dst operand : Word) : Statement (.addRl dst operand) := fun _ => ⟨_, _, rfl, rfl⟩

theorem addRr (dst operand : Word) : Statement (.addRr dst operand) := fun _ => ⟨_, _, rfl, rfl⟩

theorem subRl (dst operand : Word) : Statement (.subRl dst operand) := fun _ => ⟨_, _, rfl, rfl⟩

theorem subRr (dst operand : Word) : Statement (.subRr dst operand) := fun _ => ⟨_, _, rfl, rfl⟩

theorem mulRl (dst operand : Word) : Statement (.mulRl dst operand) := fun _ => ⟨_, _, rfl, rfl⟩

theorem mulRr (dst operand : Word) : Statement (.mulRr dst operand) := fun _ => ⟨_, _, rfl, rfl⟩

theorem divRl (dst operand : Word) : Statement (.divRl dst operand) := fun _ => ⟨_, _, rfl, rfl⟩

theorem divRr (dst operand : Word) : Statement (.divRr dst operand) := fun _ => ⟨_, _, rfl, rfl⟩

theorem powRl (dst operand : Word) : Statement (.powRl dst operand) := fun _ => ⟨_, _, rfl, rfl⟩

theorem powRr (dst operand : Word) : Statement (.powRr dst operand) := fun _ => ⟨_, _, rfl, rfl⟩

theorem andRl (dst operand : Word) : Statement (.andRl dst operand) := fun _ => ⟨_, _, rfl, rfl⟩

theorem andRr (dst operand : Word) : Statement (.andRr dst operand) := fun _ => ⟨_, _, rfl, rfl⟩

theorem orRl (dst operand : Word) : Statement (.orRl dst operand) := fun _ => ⟨_, _, rfl, rfl⟩

theorem orRr (dst operand : Word) : Statement (.orRr dst operand) := fun _ => ⟨_, _, rfl, rfl⟩

theorem norRl (dst operand : Word) : Statement (.norRl dst operand) := fun _ => ⟨_, _, rfl, rfl⟩

theorem norRr (dst operand : Word) : Statement (.norRr dst operand) := fun _ => ⟨_, _, rfl, rfl⟩

theorem xorRl (dst operand : Word) : Statement (.xorRl dst operand) := fun _ => ⟨_, _, rfl, rfl⟩

theorem xorRr (dst operand : Word) : Statement (.xorRr dst operand) := fun _ => ⟨_, _, rfl, rfl⟩

theorem notR (reg : Word) : Statement (.notR reg) := fun _ => ⟨_, _, rfl, rfl⟩

theorem halt : Statement .halt := fun _ => ⟨_, _, rfl, rfl⟩

theorem lshiftRl (reg count : Word) : Statement (.lshiftRl reg count) := fun _ => ⟨_, _, rfl, rfl⟩

theorem lshiftRr (reg count : Word) : Statement (.lshiftRr reg count) := fun _ => ⟨_, _, rfl, rfl⟩

theorem rshiftRl (reg count : Word) : Statement (.rshiftRl reg count) := fun _ => ⟨_, _, rfl, rfl⟩

theorem rshiftRr (reg count : Word) : Statement (.rshiftRr reg count) := fun _ => ⟨_, _, rfl, rfl⟩

theorem jgteqL (target : Word) : Statement (.jgteqL target) := fun _ => ⟨_, _, rfl, rfl⟩

theorem jgteqR (target : Word) : Statement (.jgteqR target) := fun _ => ⟨_, _, rfl, rfl⟩

theorem jlteqL (target : Word) : Statement (.jlteqL target) := fun _ => ⟨_, _, rfl, rfl⟩

theorem jlteqR (target : Word) : Statement (.jlteqR target) := fun _ => ⟨_, _, rfl, rfl⟩

theorem lshiftCarryRl (reg count : Word) : Statement (.lshiftCarryRl reg count) := fun _ => ⟨_, _, rfl, rfl⟩

theorem lshiftCarryRr (reg count : Word) : Statement (.lshiftCarryRr reg count) := fun _ => ⟨_, _, rfl, rfl⟩

theorem rshiftCarryRl (reg count : Word) : Statement (.rshiftCarryRl reg count) := fun _ => ⟨_, _, rfl, rfl⟩

theorem rshiftCarryRr (reg count : Word) : Statement (.rshiftCarryRr reg count) := fun _ => ⟨_, _, rfl, rfl⟩

theorem jmpL (target : Word) : Statement (.jmpL target) := fun _ => ⟨_, _, rfl, rfl⟩

theorem jmpR (target : Word) : Statement (.jmpR target) := fun _ => ⟨_, _, rfl, rfl⟩

theorem callL (target : Word) : Statement (.callL target) := fun _ => ⟨_, _, rfl, rfl⟩

theorem callR (target : Word) : Statement (.callR target) := fun _ => ⟨_, _, rfl, rfl⟩

theorem ret : Statement .ret := fun _ => ⟨_, _, rfl, rfl⟩

theorem ldmRl (dst addr : Word) : Statement (.ldmRl dst addr) := fun _ => ⟨_, _, rfl, rfl⟩

theorem ldmRr (dst addr : Word) : Statement (.ldmRr dst addr) := fun _ => ⟨_, _, rfl, rfl⟩

theorem svmRl (addr value : Word) : Statement (.svmRl addr value) := fun _ => ⟨_, _, rfl, rfl⟩

theorem svmRr (addr value : Word) : Statement (.svmRr addr value) := fun _ => ⟨_, _, rfl, rfl⟩

theorem svmLl (addr value : Word) : Statement (.svmLl addr value) := fun _ => ⟨_, _, rfl, rfl⟩

theorem svmLr (addr value : Word) : Statement (.svmLr addr value) := fun _ => ⟨_, _, rfl, rfl⟩

theorem unknown (opword : Word) : Statement (.unknown opword) := fun h => by
  have hs := shapeOf_unknown opword h
  exact ⟨opword, [], rfl, by rw [hs]; rfl⟩

end Laws.EncodedForm

end Sys2Proof
end

