-- ==== Sys2Proof/Laws/Turn.lean ====
section
/-! SUPPORT. What a turn, a host action and a step can do. -/

namespace Sys2Proof.Machine

/-! ### The turn -/

/-- Passing the turn keeps the core list (60_exceptions.md R283). -/
@[simp] theorem coreList_endTurn (s : State) : coreList (endTurn s) = coreList s := by
  unfold endTurn coreList
  cases ha : s.coresAfter with
  | cons c rest => simp
  | nil =>
    cases hb : s.coresBefore with
    | nil => simp [ha, hb]
    | cons c rest => simp

/-- Passing the turn changes nothing but whose turn it is. -/
theorem endTurn_eq (s : State) :
    ∃ before core after, endTurn s =
      { s with coresBefore := before, core := core, coresAfter := after } := by
  unfold endTurn
  cases s.coresAfter with
  | cons c rest => exact ⟨_, _, _, rfl⟩
  | nil =>
    cases hb : s.coresBefore with
    | nil => exact ⟨s.coresBefore, s.core, s.coresAfter, rfl⟩
    | cons c rest => exact ⟨_, _, _, rfl⟩

/-- All that the end of a turn adds to an answer. -/
theorem thenEndTurn_next {x : Result} {t : State} (h : thenEndTurn x = .next t) :
    ∃ t', x = .next t' ∧ t = endTurn t' := by
  cases x with
  | next t' =>
    cases h
    exact ⟨t', rfl, rfl⟩
  | fault f => cases h
  | refused r => cases h

/-- All that a Core's turn can do: nothing when the CPU or the Core is dead; else the fetch faults, or the
fetched instruction is executed (30_encoding.md R101). -/
theorem coreStep_cases (s : State) :
    ((s.cpuAlive && s.core.alive) = false ∧ coreStep s = .next s) ∨
      ((s.cpuAlive && s.core.alive) = true ∧
        ((∃ f, fetch s = .error f ∧ coreStep s = .next (takeFault s f)) ∨
          ∃ i, fetch s = .ok i ∧ coreStep s = exec i s)) := by
  cases h : s.cpuAlive && s.core.alive with
  | false => exact .inl ⟨rfl, by simp [coreStep, h]⟩
  | true =>
    refine .inr ⟨rfl, ?_⟩
    cases hf : fetch s with
    | error f => exact .inl ⟨f, rfl, by simp [coreStep, h, hf]⟩
    | ok i => exact .inr ⟨i, rfl, by simp [coreStep, h, hf]⟩

/-- What a step does: it refuses an invalid configuration, or the next agent acts. -/
theorem step_eq (s : State) (h : configOk s = true) : step s = nextAgent s := by
  simp [step, h]

/-- A step that answers a next state was made in a valid configuration by the next agent. -/
theorem step_next {s t : State} (h : step s = .next t) : configOk s = true ∧ nextAgent s = .next t := by
  unfold step at h
  split at h
  · rename_i hc
    exact ⟨hc, h⟩
  · cases h

/-- All that the next agent can be: the host's next action between ticks, or a Core's turn. -/
theorem nextAgent_cases (s : State) :
    (∃ a rest, s.coresBefore = [] ∧ s.host = a :: rest ∧
        nextAgent s = hostStep a { s with host := rest }) ∨
      ((s.coresBefore ≠ [] ∨ s.host = []) ∧ nextAgent s = coreTurn s) := by
  unfold nextAgent
  cases hb : s.coresBefore with
  | nil =>
    cases hh : s.host with
    | nil => exact .inr ⟨.inr rfl, rfl⟩
    | cons a rest => exact .inl ⟨a, rest, rfl, rfl, rfl⟩
  | cons c cs => exact .inr ⟨.inl (by simp), rfl⟩

/-- Inside a tick, and between ticks with no host action left, a step is the turn of a Core (log 2). -/
theorem step_coreTurn {s : State} (hc : configOk s = true) (h : s.coresBefore ≠ [] ∨ s.host = []) :
    step s = coreTurn s := by
  rw [step_eq s hc]
  rcases nextAgent_cases s with ⟨a, rest, hb, hh, _⟩ | ⟨_, e⟩
  · rcases h with h | h
    · exact absurd hb h
    · rw [hh] at h; cases h
  · exact e

/-- Between ticks, a step in which the host asks for a tick is the turn of Core 0 with that request taken
(00_scope.md R9, 60_exceptions.md R283). -/
theorem step_hostTick {s : State} {later : List HostAction} (hc : configOk s = true)
    (hb : s.coresBefore = []) (hh : s.host = .tick :: later) :
    step s = coreTurn { s with host := later } := by
  rw [step_eq s hc, nextAgent, hb, hh]; rfl

/-- Changing one Core changes the core list at its place only. -/
theorem coreList_modifyCore (s : State) (i : Nat) (f : CoreState → CoreState) :
    coreList (modifyCore s i f) = (coreList s).modify i f := by
  apply List.ext_getElem?
  intro j
  unfold modifyCore coreList
  rw [List.getElem?_modify]
  split
  · rename_i h
    simp only [List.getElem?_append, List.length_modify, List.getElem?_modify]
    by_cases hj : j < s.coresBefore.length
    · simp [hj]
    · have hij : i ≠ j := by omega
      simp [hj, hij]
  · split
    · rename_i h1 h2
      simp only [List.getElem?_append]
      by_cases hj : j < s.coresBefore.length
      · have hij : i ≠ j := by omega
        simp [hj, hij]
      · by_cases hij : i = j
        · simp [hij, h2.symm.trans hij]
        · obtain ⟨k, hk⟩ : ∃ k, j - s.coresBefore.length = k + 1 :=
            ⟨j - s.coresBefore.length - 1, by omega⟩
          simp [hj, hij, hk]
    · rename_i h1 h2
      simp only [List.getElem?_append]
      by_cases hj : j < s.coresBefore.length
      · have hij : i ≠ j := by omega
        simp [hj, hij]
      · cases hk : j - s.coresBefore.length with
        | zero =>
          have hij : i ≠ j := by omega
          simp [hj, hij]
        | succ k =>
          have : (i - s.coresBefore.length - 1 = k) = (i = j) := by
            apply propext
            omega
          simp [hj, List.getElem?_modify, this]

/-- Changing one Core changes nothing else. -/
theorem modifyCore_eq (s : State) (i : Nat) (f : CoreState → CoreState) :
    ∃ before core after, modifyCore s i f =
      { s with coresBefore := before, core := core, coresAfter := after } := by
  unfold modifyCore
  split
  · exact ⟨_, s.core, s.coresAfter, rfl⟩
  · split
    · exact ⟨s.coresBefore, _, s.coresAfter, rfl⟩
    · exact ⟨s.coresBefore, s.core, _, rfl⟩

end Sys2Proof.Machine
end

