-- ==== Sys2Proof/Tests/Slice0.lean ====
section
/-! SUPPORT. The model's own tests. Every expected value is taken from the spec, most from its vectors
(95_test_vectors.md, named V<n>.<m> here), or worked out by hand from the rule named. Then, for every
obligation with hypotheses, states and operands that meet them. -/

namespace Sys2Proof.Tests

open Sys2Proof.Machine Sys2Proof.Claims

/-! ### The machine of the one-step vectors -/

/-- The conventions of 95_test_vectors.md Part 2: one live Core, 0x100 words of RAM, `PC = 0x20`. -/
def demo : State :=
  let s := State.resetOf { defaultConfig with ramCapacity := 0x100 }
  { s with cpuAlive := true, booted := true, host := [], core := { s.core with alive := true, pc := 0x20 } }

/-- `demo` with registers set. -/
def regs (l : List (Reg × Word)) : State :=
  l.foldl (fun s p => setReg s p.1 p.2) demo

/-- One step of a state with the words stored at 0x20. -/
def oneStep (s : State) (words : List Word) : Option State :=
  match step { s with ram := writeWords s.ram 0x20 words } with
  | .next t => some t
  | _ => none

/-- The named registers after one step of the words at 0x20. -/
def after (s : State) (words : List Word) (rs : List Reg) : Option (List Word) :=
  (oneStep s words).map fun t => rs.map (getReg t)

/-- The Core's alive flag, `PC` and fault record after one step of the words at 0x20. -/
def faultAfter (s : State) (words : List Word) : Option (Bool × Word × Option FaultRecord) :=
  (oneStep s words).map fun t => (t.core.alive, t.core.pc, t.core.fault)

/-- A register fault taken at 0x20. -/
def registerFault (info : Word) : Option (Bool × Word × Option FaultRecord) :=
  some (false, 0x20, some { cause := .addressOutOfRangeRegister, info := info, address := 0x20 })

/-- A memory fault taken at 0x20. -/
def memoryFault (info : Word) : Option (Bool × Word × Option FaultRecord) :=
  some (false, 0x20, some { cause := .addressOutOfRangeMemory, info := info, address := 0x20 })

/-- One word of RAM, and `PC`, after one step of the words at 0x20. -/
def ramAfter (s : State) (words : List Word) (a : Nat) : Option (Word × Word) :=
  (oneStep s words).map fun t => (readWord t.ram a, t.core.pc)

/-! ### Well-formedness: each check refuses an ill-formed term -/

/-- 30_encoding.md R97: 0x03 is `MOV_RL` and 0x45 is `SVM_LR`, so they are no unknown opcodes. -/
theorem test_wf_refuses_table_opcode :
    (Instr.unknown 0x03).wf = false ∧ (Instr.unknown 0x45).wf = false := by decide

/-- 30_encoding.md R100: the lowest and highest unknown values inside the table, and the two ends of the
range above it. -/
theorem test_wf_admits_unknown :
    (Instr.unknown 0x05).wf = true ∧ (Instr.unknown 0x3F).wf = true ∧ (Instr.unknown 0x46).wf = true ∧
      (Instr.unknown 0xFFFFFFFF).wf = true := by decide

/-- 30_encoding.md R94: an operand word above 0x1A is a legal encoding. -/
theorem test_wf_admits_any_operand : (Instr.movRl 0x1B 0).wf = true := by decide

/-- V16.4, and RAM above 2^32 - 1 words (00_scope.md R7). -/
theorem test_config_refuses_ram :
    ({ defaultConfig with ramCapacity := 0 } : Config).valid = false ∧
      ({ defaultConfig with ramCapacity := 0x100000000 } : Config).valid = false := by decide

/-- V16.4: a boot image that does not fit. -/
theorem test_config_refuses_boot_copy :
    ({ defaultConfig with ramCapacity := 50, disk := List.replicate 80 0 } : Config).valid = false ∧
      ({ defaultConfig with ramCapacity := 80, disk := List.replicate 80 0 } : Config).valid = true := by
  decide

/-- 00_scope.md R7: a disk of more than 2^32 - 1 words. -/
theorem test_config_refuses_disk :
    validCapacities 0x100 0x100000000 = false ∧ validCapacities 0x100 0xFFFFFFFF = true := by decide

/-- A step in such a configuration is refused (70_reset_and_hazards.md R302). -/
theorem test_step_refuses_configuration :
    step { demo with ramCapacity := 0 } = .refused .invalidConfiguration := rfl

/-! ### Decoding: every opcode, its words written out from 30_encoding.md R97 -/

/-- The instruction read from the front of the words. -/
def readsAs (ws : List Word) : Option Instr :=
  match decode ws with
  | .ok (i, _) => some i
  | .error _ => none

theorem test_decode_system :
    readsAs [0x00] = some .nop ∧
    readsAs [0x01, 0x1A] = some (.intL 0x1A) ∧
    readsAs [0x02, 0x1A] = some (.intR 0x1A) ∧
    readsAs [0x25] = some .halt := by
  decide

theorem test_decode_move_compare :
    readsAs [0x03, 0x1A, 0xFEDCBA98] = some (.movRl 0x1A 0xFEDCBA98) ∧
    readsAs [0x04, 0x1A, 0xFEDCBA98] = some (.movRr 0x1A 0xFEDCBA98) ∧
    readsAs [0x07, 0x1A, 0xFEDCBA98] = some (.compLl 0x1A 0xFEDCBA98) ∧
    readsAs [0x08, 0x1A, 0xFEDCBA98] = some (.compRl 0x1A 0xFEDCBA98) ∧
    readsAs [0x09, 0x1A, 0xFEDCBA98] = some (.compRr 0x1A 0xFEDCBA98) := by
  decide

theorem test_decode_arith_add_to_div :
    readsAs [0x12, 0x1A, 0xFEDCBA98] = some (.addRl 0x1A 0xFEDCBA98) ∧
    readsAs [0x13, 0x1A, 0xFEDCBA98] = some (.addRr 0x1A 0xFEDCBA98) ∧
    readsAs [0x14, 0x1A, 0xFEDCBA98] = some (.subRl 0x1A 0xFEDCBA98) ∧
    readsAs [0x15, 0x1A, 0xFEDCBA98] = some (.subRr 0x1A 0xFEDCBA98) ∧
    readsAs [0x16, 0x1A, 0xFEDCBA98] = some (.mulRl 0x1A 0xFEDCBA98) ∧
    readsAs [0x17, 0x1A, 0xFEDCBA98] = some (.mulRr 0x1A 0xFEDCBA98) ∧
    readsAs [0x18, 0x1A, 0xFEDCBA98] = some (.divRl 0x1A 0xFEDCBA98) ∧
    readsAs [0x19, 0x1A, 0xFEDCBA98] = some (.divRr 0x1A 0xFEDCBA98) := by
  decide

theorem test_decode_arith_pow_to_not :
    readsAs [0x1A, 0x1A, 0xFEDCBA98] = some (.powRl 0x1A 0xFEDCBA98) ∧
    readsAs [0x1B, 0x1A, 0xFEDCBA98] = some (.powRr 0x1A 0xFEDCBA98) ∧
    readsAs [0x1C, 0x1A, 0xFEDCBA98] = some (.andRl 0x1A 0xFEDCBA98) ∧
    readsAs [0x1D, 0x1A, 0xFEDCBA98] = some (.andRr 0x1A 0xFEDCBA98) ∧
    readsAs [0x1E, 0x1A, 0xFEDCBA98] = some (.orRl 0x1A 0xFEDCBA98) ∧
    readsAs [0x1F, 0x1A, 0xFEDCBA98] = some (.orRr 0x1A 0xFEDCBA98) ∧
    readsAs [0x20, 0x1A, 0xFEDCBA98] = some (.norRl 0x1A 0xFEDCBA98) ∧
    readsAs [0x21, 0x1A, 0xFEDCBA98] = some (.norRr 0x1A 0xFEDCBA98) ∧
    readsAs [0x22, 0x1A, 0xFEDCBA98] = some (.xorRl 0x1A 0xFEDCBA98) ∧
    readsAs [0x23, 0x1A, 0xFEDCBA98] = some (.xorRr 0x1A 0xFEDCBA98) ∧
    readsAs [0x24, 0x1A] = some (.notR 0x1A) := by
  decide

theorem test_decode_shift :
    readsAs [0x26, 0x1A, 0xFEDCBA98] = some (.lshiftRl 0x1A 0xFEDCBA98) ∧
    readsAs [0x27, 0x1A, 0xFEDCBA98] = some (.lshiftRr 0x1A 0xFEDCBA98) ∧
    readsAs [0x2A, 0x1A, 0xFEDCBA98] = some (.rshiftRl 0x1A 0xFEDCBA98) ∧
    readsAs [0x2B, 0x1A, 0xFEDCBA98] = some (.rshiftRr 0x1A 0xFEDCBA98) ∧
    readsAs [0x32, 0x1A, 0xFEDCBA98] = some (.lshiftCarryRl 0x1A 0xFEDCBA98) ∧
    readsAs [0x33, 0x1A, 0xFEDCBA98] = some (.lshiftCarryRr 0x1A 0xFEDCBA98) ∧
    readsAs [0x36, 0x1A, 0xFEDCBA98] = some (.rshiftCarryRl 0x1A 0xFEDCBA98) ∧
    readsAs [0x37, 0x1A, 0xFEDCBA98] = some (.rshiftCarryRr 0x1A 0xFEDCBA98) := by
  decide

theorem test_decode_jump :
    readsAs [0x0A, 0x1A] = some (.jeqL 0x1A) ∧
    readsAs [0x0B, 0x1A] = some (.jeqR 0x1A) ∧
    readsAs [0x0C, 0x1A] = some (.jltL 0x1A) ∧
    readsAs [0x0D, 0x1A] = some (.jltR 0x1A) ∧
    readsAs [0x0E, 0x1A] = some (.jgtL 0x1A) ∧
    readsAs [0x0F, 0x1A] = some (.jgtR 0x1A) ∧
    readsAs [0x10, 0x1A] = some (.jneqL 0x1A) ∧
    readsAs [0x11, 0x1A] = some (.jneqR 0x1A) ∧
    readsAs [0x2E, 0x1A] = some (.jgteqL 0x1A) ∧
    readsAs [0x2F, 0x1A] = some (.jgteqR 0x1A) ∧
    readsAs [0x30, 0x1A] = some (.jlteqL 0x1A) ∧
    readsAs [0x31, 0x1A] = some (.jlteqR 0x1A) ∧
    readsAs [0x3A, 0x1A] = some (.jmpL 0x1A) ∧
    readsAs [0x3B, 0x1A] = some (.jmpR 0x1A) := by
  decide

theorem test_decode_call_ret :
    readsAs [0x3C, 0x1A] = some (.callL 0x1A) ∧
    readsAs [0x3D, 0x1A] = some (.callR 0x1A) ∧
    readsAs [0x3E] = some .ret := by
  decide

theorem test_decode_load_store :
    readsAs [0x40, 0x1A, 0xFEDCBA98] = some (.ldmRl 0x1A 0xFEDCBA98) ∧
    readsAs [0x41, 0x1A, 0xFEDCBA98] = some (.ldmRr 0x1A 0xFEDCBA98) ∧
    readsAs [0x42, 0x1A, 0xFEDCBA98] = some (.svmRl 0x1A 0xFEDCBA98) ∧
    readsAs [0x43, 0x1A, 0xFEDCBA98] = some (.svmRr 0x1A 0xFEDCBA98) ∧
    readsAs [0x44, 0x1A, 0xFEDCBA98] = some (.svmLl 0x1A 0xFEDCBA98) ∧
    readsAs [0x45, 0x1A, 0xFEDCBA98] = some (.svmLr 0x1A 0xFEDCBA98) := by
  decide

/-- 30_encoding.md R99, R100; V5.10 to V5.12: the whole word counts, and an unknown opcode is one word. -/
theorem test_decode_unknown :
    readsAs [0x46, 0x07, 0x03] = some (.unknown 0x46) ∧ readsAs [0x125] = some (.unknown 0x125) ∧
      readsAs [0x05] = some (.unknown 0x05) ∧ readsAs [0x3F] = some (.unknown 0x3F) ∧
      readsAs [0xFFFFFFFF] = some (.unknown 0xFFFFFFFF) := by
  decide

/-- 30_encoding.md R92: words that end too early are no instruction, and the reason is named. -/
theorem test_decode_too_short :
    decode [] = .error .noOpcodeWord ∧ decode [0x01] = .error .noOperand1 ∧
      decode [0x03] = .error .noOperand1 ∧ decode [0x03, 0x07] = .error .noOperand2 := by
  exact ⟨rfl, rfl, rfl, rfl⟩

/-- The opcode table's numbering: bit 0 is the lowest bit of the opcode word, and operand words that the
table gives no bits are zero. -/
theorem test_decodeTableWord :
    decodeTableWord 96 0x000000030000000700000012 = some (.addRl 0x07 0x03) ∧
      decodeTableWord 32 0x12 = some (.addRl 0 0) ∧ decodeTableWord 32 0x25 = some .halt := by
  decide

/-- An instruction placed by `withFetchWord` is the first after reset: `MOV_RL G0, 3`. -/
theorem test_withFetchWord :
    (match step (State.reset.withFetchWord 96 0x000000030000000700000003) with
      | .next t => some (getReg t (.g 0), t.core.pc)
      | _ => none) = some (3, 3) := by
  decide

/-! ### System instructions -/

/-- V5.1. -/
theorem test_nop : after demo [0x00] [.pc] = some [0x21] := by decide

/-- V5.2. -/
theorem test_int_resolution :
    after { regs [(.g 0, 3)] with displayInputs := [{ width := 0x280, height := 0x1E0 }] } [0x01, 0x10]
      [.g 0, .g 1, .g 2, .pc] = some [3, 0x280, 0x1E0, 0x22] := by decide

/-- V5.3. -/
theorem test_int_setPixel :
    (oneStep (regs [(.g 0, 1), (.g 1, 10), (.g 2, 20), (.g 3, 99), (.g 4, 255), (.g 5, 128),
      (.g 6, 0x1FF)]) [0x01, 0x10]).map (fun t => (t.pixels, t.core.pc)) =
      some ([{ x := 10, y := 20, r := 255, g := 128, b := 0x1FF }], 0x22) := by decide

/-- V5.7, with an uninitialised display (60_exceptions.md R274): it answers 0. -/
theorem test_int_r_uninitialised :
    after (regs [(.g 7, 0x10), (.g 0, 3), (.g 1, 9)]) [0x02, 0x0E] [.g 1, .g 2, .pc] =
      some [0, 0, 0x22] := by decide

/-- V5.8. -/
theorem test_int_r_fault : faultAfter (regs [(.g 0, 3)]) [0x02, 0x1B] = registerFault 0x1B := by decide

/-- V5.9 and P6: `HALT` clears every alive flag and advances only its own `PC`. -/
theorem test_halt :
    (oneStep { demo with coresAfter := [demo.core] } [0x25]).map (fun t => (t.cpuAlive,
      (coreList t).map (fun c => (c.alive, c.pc)))) = some (false, [(false, 0x21), (false, 0x20)]) := by
  decide

/-- V5.10. -/
theorem test_unknown : after demo [0x46, 0x07, 0x03] [.pc, .g 0] = some [0x21, 0] := by decide

/-! ### Move and compare -/

/-- V6.5. -/
theorem test_mov_rl : after demo [0x03, 0x1A, 0x09] [.s 3, .pc] = some [9, 0x23] := by decide

/-- V6.2: a value written to `PC` is lost. -/
theorem test_mov_rl_pc : after demo [0x03, 0x02, 0x80] [.pc] = some [0x23] := by decide

/-- V6.7. -/
theorem test_mov_rr :
    after (regs [(.g 1, 0x280)]) [0x04, 0x0A, 0x08] [.g 3, .g 1, .pc] = some [0x280, 0x280, 0x23] := by
  decide

/-- V6.9. -/
theorem test_mov_rr_fault : faultAfter (regs [(.g 0, 5)]) [0x04, 0x07, 0x20] = registerFault 0x20 := by
  decide

/-- V7.1. -/
theorem test_comp_ll :
    after (regs [(.flags, 0xFFFFFF7F)]) [0x07, 0x05, 0x05] [.flags, .pc] = some [0x81, 0x23] := by decide

/-- V7.3. -/
theorem test_comp_rl :
    after (regs [(.g 0, 4)]) [0x08, 0x07, 0x00] [.flags, .pc] = some [0xA2, 0x23] := by decide

/-- V7.5. -/
theorem test_comp_rr :
    after (regs [(.g 0, 0x80000000), (.g 1, 1)]) [0x09, 0x07, 0x08] [.flags, .pc] =
      some [0x92, 0x23] := by decide

/-- V7.7: the operands are read before the flags are cleared. -/
theorem test_comp_rr_flags :
    after (regs [(.flags, 0x44)]) [0x09, 0x01, 0x01] [.flags, .pc] = some [0x81, 0x23] := by decide

/-- V2.9, V2.11, V3.1, V3.4. -/
theorem test_compare_flags :
    compareTwo 0 1 0x80000000 = 0x94 ∧ compareTwo 0 0 0xFFFFFFFF = 0xB4 ∧ compareOne 0xFF 0 = 0x20 ∧
      compareOne 0xFF 0xFFFFFFFF = 0x10 := by decide

/-! ### Arithmetic and logic -/

/-- V8.1. -/
theorem test_add_rl :
    after (regs [(.g 0, 6), (.flags, 0x44)]) [0x12, 0x07, 0x03] [.g 0, .flags, .pc] =
      some [9, 0x44, 0x23] := by decide

/-- V8.2. -/
theorem test_add_rr :
    after (regs [(.g 0, 0xFFFFFFFF), (.g 1, 2)]) [0x13, 0x07, 0x08] [.g 0, .g 1, .pc] =
      some [1, 2, 0x23] := by decide

/-- V8.3. -/
theorem test_sub_rl :
    after (regs [(.g 0, 6), (.flags, 0x44)]) [0x14, 0x07, 0x03] [.g 0, .flags, .pc] =
      some [3, 0x44, 0x23] := by decide

/-- V8.4. -/
theorem test_sub_rr :
    after (regs [(.g 0, 0xFFFFFFFF), (.g 1, 2)]) [0x15, 0x07, 0x08] [.g 0, .g 1, .pc] =
      some [0xFFFFFFFD, 2, 0x23] := by decide

/-- V8.5. -/
theorem test_mul_rl :
    after (regs [(.g 0, 6), (.flags, 0x44)]) [0x16, 0x07, 0x03] [.g 0, .flags, .pc] =
      some [0x12, 0x44, 0x23] := by decide

/-- V8.6. -/
theorem test_mul_rr :
    after (regs [(.g 0, 0xFFFFFFFF), (.g 1, 2)]) [0x17, 0x07, 0x08] [.g 0, .g 1, .pc] =
      some [0xFFFFFFFE, 2, 0x23] := by decide

/-- V8.7. -/
theorem test_div_rl :
    after (regs [(.g 0, 6), (.flags, 0x44)]) [0x18, 0x07, 0x03] [.g 0, .flags, .pc] =
      some [2, 0x44, 0x23] := by decide

/-- V8.8. -/
theorem test_div_rr :
    after (regs [(.g 0, 0xFFFFFFFF), (.g 1, 2)]) [0x19, 0x07, 0x08] [.g 0, .g 1, .pc] =
      some [0x7FFFFFFF, 2, 0x23] := by decide

/-- V8.9. -/
theorem test_pow_rl :
    after (regs [(.g 0, 6), (.flags, 0x44)]) [0x1A, 0x07, 0x03] [.g 0, .flags, .pc] =
      some [5, 0x44, 0x23] := by decide

/-- V8.10. -/
theorem test_pow_rr :
    after (regs [(.g 0, 0xFFFFFFFF), (.g 1, 2)]) [0x1B, 0x07, 0x08] [.g 0, .g 1, .pc] =
      some [0xFFFFFFFD, 2, 0x23] := by decide

/-- V8.11. -/
theorem test_and_rl :
    after (regs [(.g 0, 6), (.flags, 0x44)]) [0x1C, 0x07, 0x03] [.g 0, .flags, .pc] =
      some [2, 0x44, 0x23] := by decide

/-- V8.12. -/
theorem test_and_rr :
    after (regs [(.g 0, 0xFFFFFFFF), (.g 1, 2)]) [0x1D, 0x07, 0x08] [.g 0, .g 1, .pc] =
      some [2, 2, 0x23] := by decide

/-- V8.13. -/
theorem test_or_rl :
    after (regs [(.g 0, 6), (.flags, 0x44)]) [0x1E, 0x07, 0x03] [.g 0, .flags, .pc] =
      some [7, 0x44, 0x23] := by decide

/-- V8.14. -/
theorem test_or_rr :
    after (regs [(.g 0, 0xFFFFFFFF), (.g 1, 2)]) [0x1F, 0x07, 0x08] [.g 0, .g 1, .pc] =
      some [0xFFFFFFFF, 2, 0x23] := by decide

/-- V8.15. -/
theorem test_nor_rl :
    after (regs [(.g 0, 6), (.flags, 0x44)]) [0x20, 0x07, 0x03] [.g 0, .flags, .pc] =
      some [0xFFFFFFF8, 0x44, 0x23] := by decide

/-- V8.16. -/
theorem test_nor_rr :
    after (regs [(.g 0, 0xFFFFFFFF), (.g 1, 2)]) [0x21, 0x07, 0x08] [.g 0, .g 1, .pc] =
      some [0, 2, 0x23] := by decide

/-- V8.17. -/
theorem test_xor_rl :
    after (regs [(.g 0, 6), (.flags, 0x44)]) [0x22, 0x07, 0x03] [.g 0, .flags, .pc] =
      some [5, 0x44, 0x23] := by decide

/-- V8.18. -/
theorem test_xor_rr :
    after (regs [(.g 0, 0xFFFFFFFF), (.g 1, 2)]) [0x23, 0x07, 0x08] [.g 0, .g 1, .pc] =
      some [0xFFFFFFFD, 2, 0x23] := by decide

/-- V8.22. -/
theorem test_div_rl_zero :
    faultAfter (regs [(.g 0, 10)]) [0x18, 0x07, 0x00] =
      some (false, 0x20, some { cause := .divideByZero, info := 10, address := 0x20 }) := by decide

/-- V15.6: the register fault comes before the division. -/
theorem test_div_rr_register_first :
    faultAfter (regs [(.g 0, 1)]) [0x19, 0x07, 0x1B] = registerFault 0x1B := by decide

/-- V8.37. -/
theorem test_not_r :
    after (regs [(.g 0, 0x0F0F0F0F)]) [0x24, 0x07] [.g 0, .pc] = some [0xF0F0F0F0, 0x22] := by decide

/-- V8.40, V8.41 and column V4.1, with `ARITH_VIA_LOAD = true`: the flags and the slots are rewritten, the
first and the last slot checked here, and a zero operand faults. -/
theorem test_add_rl_via_load :
    (oneStep { regs [(.g 0, 6), (.flags, 0x44)] with arithViaLoad := true } [0x12, 0x07, 0x03]).map
      (fun t => (getReg t (.g 0), t.core.flags, t.core.p[0], t.core.p[12])) =
      some (9, 0x82, 9, 0xFFFFFFFC) ∧
    faultAfter { regs [(.g 0, 6)] with arithViaLoad := true } [0x12, 0x07, 0x00] =
      some (false, 0x20, some { cause := .divideByZero, info := 6, address := 0x20 }) := by decide

/-- Columns V4.3 and V4.4 of the load table, all slots but MODULO, which keeps its value. -/
theorem test_load_slots :
    (cachedResults (Vector.replicate 13 0xAB) 0x12345678 0x0F0F0F0F 1 0x03254769).toList =
      [0x21436587, 0x03254769, 0x3B2A1908, 1, 0x03254769, 0x1D3B5977, 0xAB, 0x02040608, 0x1F3F5F7F,
        0xE0C0A080, 0x1D3B5977, 0xEDCBA987, 0xF0F0F0F0] ∧
    (match loadOne { demo.core with p := Vector.replicate 13 0xAB } 7 with
      | .ok c => c.p.toList
      | .error _ => []) =
      [6, 8, 0xFFFFFFF9, 0, 7, 0xFFFFFFF8, 0xAB, 7, 0xFFFFFFFF, 0, 0xFFFFFFF8, 0xFFFFFFF8, 0] := by
  decide

/-- V1.9, V1.10, V1.11, V1.20. -/
theorem test_alu_primitives :
    aluMul 0x12345678 0x10 = 0x23456780 ∧ divF 7 2 = .ok (3, 1) ∧
      divF 0xFFFFFFFF 2 = .ok (0x7FFFFFFF, 1) ∧ aluXor 0xF0F0F0F0 0xFF00FF00 = 0x0FF00FF0 := by
  exact ⟨rfl, rfl, rfl, rfl⟩

/-! ### Shifts -/

/-- V9.1. -/
theorem test_lshift_rl :
    after (regs [(.g 0, 0x12345678), (.flags, 0x88)]) [0x26, 0x07, 0x04] [.g 0, .flags, .pc] =
      some [0x23456780, 0x88, 0x23] := by decide

/-- V9.2. -/
theorem test_lshift_rr :
    after (regs [(.g 0, 0x80000001), (.g 1, 1), (.flags, 0x88)]) [0x27, 0x07, 0x08] [.g 0, .flags, .pc] =
      some [0x00000002, 0x88, 0x23] := by decide

/-- V9.3. -/
theorem test_rshift_rl :
    after (regs [(.g 0, 0x12345678), (.flags, 0x88)]) [0x2A, 0x07, 0x04] [.g 0, .flags, .pc] =
      some [0x01234567, 0x88, 0x23] := by decide

/-- V9.4. -/
theorem test_rshift_rr :
    after (regs [(.g 0, 0x80000001), (.g 1, 1), (.flags, 0x88)]) [0x2B, 0x07, 0x08] [.g 0, .flags, .pc] =
      some [0x40000000, 0x88, 0x23] := by decide

/-- V9.5. -/
theorem test_lshift_carry_rl :
    after (regs [(.g 0, 0x12345678), (.flags, 0x88)]) [0x32, 0x07, 0x04] [.g 0, .flags, .pc] =
      some [0x23456780, 0x88, 0x23] := by decide

/-- V9.6. -/
theorem test_lshift_carry_rr :
    after (regs [(.g 0, 0x80000001), (.g 1, 1), (.flags, 0x88)]) [0x33, 0x07, 0x08] [.g 0, .flags, .pc] =
      some [0x00000002, 0x88, 0x23] := by decide

/-- V9.7. -/
theorem test_rshift_carry_rl :
    after (regs [(.g 0, 0x12345678), (.flags, 0x88)]) [0x36, 0x07, 0x04] [.g 0, .flags, .pc] =
      some [0x01234567, 0x88, 0x23] := by decide

/-- V9.8. -/
theorem test_rshift_carry_rr :
    after (regs [(.g 0, 0x80000001), (.g 1, 1), (.flags, 0x88)]) [0x37, 0x07, 0x08] [.g 0, .flags, .pc] =
      some [0x40000000, 0x88, 0x23] := by decide

/-- V9.9: the largest count the rule gives a value for. -/
theorem test_lshift_rl_31 :
    after (regs [(.g 0, 1)]) [0x26, 0x07, 0x1F] [.g 0, .pc] = some [0x80000000, 0x23] := by decide

/-- V9.15: with a count of 32 `PC` advances and nothing faults; the value is the free `SHIFT_OVER`. -/
theorem test_rshift_rl_32 :
    (oneStep (regs [(.g 0, 0x12345678)]) [0x2A, 0x07, 0x20]).map (fun t => (t.core.pc, t.core.fault)) =
      some (0x23, none) := by decide

/-! ### Jumps: `PC` for `FLAGS` equal, greater and less -/

/-- `PC` after a jump to 0x50, for the three flag values of V10. -/
def jumpRow (opcode : Word) : List (Option (List Word)) :=
  [after (regs [(.flags, 0x81)]) [opcode, 0x50] [.pc], after (regs [(.flags, 0x82)]) [opcode, 0x50] [.pc],
    after (regs [(.flags, 0x84)]) [opcode, 0x50] [.pc]]

/-- `PC` after a jump through `G2 = 0x60`, for the same flag values. -/
def jumpRegRow (opcode : Word) : List (Option (List Word)) :=
  [after (regs [(.g 2, 0x60), (.flags, 0x81)]) [opcode, 0x09] [.pc],
    after (regs [(.g 2, 0x60), (.flags, 0x82)]) [opcode, 0x09] [.pc],
    after (regs [(.g 2, 0x60), (.flags, 0x84)]) [opcode, 0x09] [.pc]]

/-- V10.1. -/
theorem test_jeq_l : jumpRow 0x0A = [some [0x50], some [0x22], some [0x22]] := by decide

/-- V10.7, and the same condition on the other two flag values. -/
theorem test_jeq_r : jumpRegRow 0x0B = [some [0x60], some [0x22], some [0x22]] := by decide

/-- V10.2. -/
theorem test_jlt_l : jumpRow 0x0C = [some [0x22], some [0x22], some [0x50]] := by decide

/-- V10.8, and the same condition on the other two flag values. -/
theorem test_jlt_r : jumpRegRow 0x0D = [some [0x22], some [0x22], some [0x60]] := by decide

/-- V10.3. -/
theorem test_jgt_l : jumpRow 0x0E = [some [0x22], some [0x50], some [0x22]] := by decide

/-- V10.9, and the same condition on the other two flag values. -/
theorem test_jgt_r : jumpRegRow 0x0F = [some [0x22], some [0x60], some [0x22]] := by decide

/-- V10.4. -/
theorem test_jneq_l : jumpRow 0x10 = [some [0x22], some [0x50], some [0x50]] := by decide

/-- V10.10, and the same condition on the other two flag values. -/
theorem test_jneq_r : jumpRegRow 0x11 = [some [0x22], some [0x60], some [0x60]] := by decide

/-- V10.5. -/
theorem test_jgteq_l : jumpRow 0x2E = [some [0x50], some [0x50], some [0x22]] := by decide

/-- V10.11, and the same condition on the other two flag values. -/
theorem test_jgteq_r : jumpRegRow 0x2F = [some [0x60], some [0x60], some [0x22]] := by decide

/-- V10.6. -/
theorem test_jlteq_l : jumpRow 0x30 = [some [0x50], some [0x22], some [0x50]] := by decide

/-- V10.12, and the same condition on the other two flag values. -/
theorem test_jlteq_r : jumpRegRow 0x31 = [some [0x60], some [0x22], some [0x60]] := by decide

/-- V10.17: the operand is validated although the jump falls through. -/
theorem test_jeq_r_fault : faultAfter (regs [(.flags, 0x82)]) [0x0B, 0x1B] = registerFault 0x1B := by decide

/-- V10.18. -/
theorem test_jmp_l : after demo [0x3A, 0x1000] [.pc] = some [0x1000] := by decide

/-- V10.20. -/
theorem test_jmp_r : after (regs [(.g 0, 0x30)]) [0x3B, 0x07] [.pc] = some [0x30] := by decide

/-! ### Calls and returns -/

/-- V11.2. -/
theorem test_call_l :
    ramAfter (regs [(.sp, 0xFF), (.bp, 0xFF)]) [0x3C, 0x50] 0xFF = some (0x22, 0x50) ∧
      after (regs [(.sp, 0xFF), (.bp, 0xFF)]) [0x3C, 0x50] [.sp, .bp] = some [0xFE, 0xFF] := by decide

/-- V11.5: with the reset stack pointer the push is out of range. -/
theorem test_call_l_fault : faultAfter demo [0x3C, 0x50] = memoryFault 0x100 := by decide

/-- V11.4: the target is read before the push. -/
theorem test_call_r :
    ramAfter (regs [(.sp, 0xFE), (.bp, 0xFF)]) [0x3D, 0x03] 0xFE = some (0x22, 0xFE) := by decide

/-- V11.7. -/
theorem test_call_r_fault :
    faultAfter (regs [(.sp, 0xFF), (.bp, 0xFF)]) [0x3D, 0x1C] = registerFault 0x1C := by decide

/-- V11.8, and V11.11 on the empty stack. -/
theorem test_ret :
    after { regs [(.sp, 0xFE), (.bp, 0xFF)] with ram := [(0xFF, 0x22)] } [0x3E] [.sp, .pc] =
      some [0xFF, 0x22] ∧ after demo [0x3E] [.sp, .pc] = some [0x100, 0] := by decide

/-- V11.12. -/
theorem test_ret_fault : faultAfter (regs [(.sp, 0xFF), (.bp, 0x200)]) [0x3E] = memoryFault 0x100 := by
  decide

/-! ### Load and store -/

/-- V12.2: a load reads the instruction's own word. -/
theorem test_ldm_rl : after demo [0x40, 0x07, 0x20] [.g 0, .pc] = some [0x40, 0x23] := by decide

/-- V12.3. -/
theorem test_ldm_rl_fault : faultAfter (regs [(.g 0, 5)]) [0x40, 0x07, 0x100] = memoryFault 0x100 := by
  decide

/-- V12.5. -/
theorem test_ldm_rr :
    after { regs [(.g 0, 0x60)] with ram := [(0x60, 9)] } [0x41, 0x07, 0x07] [.g 0, .pc] =
      some [9, 0x23] := by decide

/-- V12.7. -/
theorem test_ldm_rr_fault :
    faultAfter (regs [(.g 0, 0xFFFFFFFF)]) [0x41, 0x08, 0x07] = memoryFault 0xFFFFFFFF := by decide

/-- V12.8. -/
theorem test_svm_rl : ramAfter (regs [(.g 0, 0x70)]) [0x42, 0x07, 0x2A] 0x70 = some (0x2A, 0x23) := by
  decide

/-- V12.10. -/
theorem test_svm_rr : ramAfter (regs [(.g 0, 0x72)]) [0x43, 0x07, 0x02] 0x72 = some (0x20, 0x23) := by
  decide

/-- V12.13: the store goes to the address as fetched. -/
theorem test_svm_ll : ramAfter demo [0x44, 0x21, 0x99] 0x21 = some (0x99, 0x23) := by decide

/-- V12.14. -/
theorem test_svm_lr : ramAfter (regs [(.g 0, 15)]) [0x45, 0x40, 0x07] 0x40 = some (15, 0x23) := by decide

/-- V12.15: the register check comes before the memory check. -/
theorem test_svm_lr_fault : faultAfter demo [0x45, 0x100, 0x1B] = registerFault 0x1B := by decide

/-! ### Boot, ticks, Buses -/

/-- V16.1: two Cores, a disk of four words. -/
def booting : State :=
  State.resetOf { defaultConfig with
    ramCapacity := 0x100, disk := [0x03, 0x07, 0x03, 0x25], otherCores := [zeroCoreRegs] }

/-- V16.1: `bootup` copies the image and marks Core 0 alive. -/
theorem test_bootup :
    (match step booting with
      | .next t => (t.ram, t.cpuAlive, (coreList t).map (fun c => (c.alive, c.pc, c.sp)))
      | _ => ([], false, [])) =
      ([(0, 0x03), (1, 0x07), (2, 0x03), (3, 0x25)], true,
        [(true, 0, 0x100), (false, 0, 0x100)]) := by decide

/-- P6, tick 2: in Core 1's turn its `ADD` sees the 1 that Core 0 left in `S0`, and the turn goes back to
Core 0. -/
theorem test_second_core :
    (oneStep { regs [(.s 0, 1)] with coresBefore := [{ demo.core with pc := 0x23 }] }
      [0x12, 0x17, 0x01]).map (fun t => (getReg t (.s 0), t.core.pc, (coreList t).map (fun c => c.pc))) =
      some (2, 0x23, [0x23, 0x23]) := by decide

/-- V14: the north Bus of the vectors. -/
def bench : State :=
  { demo with north := { busValue := 0x55, devices := [
      { mem := [10, 11, 12, 13], floor := 0x100, ceil := 0x103 },
      { mem := [20, 21, 22, 23, 24, 25, 26, 27], floor := 0x102, ceil := 0x109 },
      { mem := [0, 0], floor := 0x300, ceil := 0x303 }] } }

/-- What a host action answers its caller, and the north scratch word after it. -/
def ask (a : HostAction) : Option (HostReport × Word) :=
  match hostStep a bench with
  | .next t => some (t.hostReport, t.north.busValue)
  | _ => none

/-- V14.2 to V14.5, each from the bench's own scratch word: the last match wins, the ceiling belongs to
the range, and an unclaimed read returns the scratch word. -/
theorem test_bus_read :
    ask (.busRead .north 0x102) = some (.value 20, 20) ∧
      ask (.busRead .north 0x109) = some (.value 27, 27) ∧
      ask (.busRead .north 0x10A) = some (.value 0x55, 0x55) ∧
      ask (.busRead .south 0x100) = some (.value 0, 0x55) := by decide

/-- V14.9: past the capacity of a device. -/
theorem test_bus_read_fault :
    ask (.busRead .north 0x302) = some (.deviceOutOfRange 0x302, 0x55) := by decide

/-- V14.6: both matching devices store. -/
theorem test_bus_write :
    (match hostStep (.busWrite .north 0x103 99) bench with
      | .next t => t.north.devices.map (fun d => d.mem)
      | _ => []) = [[10, 11, 12, 99], [20, 99, 22, 23, 24, 25, 26, 27], [0, 0]] := by decide

/-- A second `bootup` and a Core that does not exist are refused (70_reset_and_hazards.md R306, log 14). -/
theorem test_host_refusals :
    step { demo with host := [.bootup] } = .refused .secondBootup ∧
      step { demo with host := [.activate 1] } = .refused .noSuchCore := ⟨rfl, rfl⟩

/-! ### The hypotheses of the obligations are met

One theorem per obligation with hypotheses, named after it; where an obligation has several clauses, each
clause's hypotheses at a boundary of its range. -/

/-- `demo` with a program that fills the stack region: `SP` and `BP` at the last word of RAM. -/
def stacked : State := regs [(.sp, 0xFF), (.bp, 0xFF)]

/-- Two live Cores at the start of a tick. -/
def pair : State := { demo with coresAfter := [demo.core] }

/-- A Core that has faulted. -/
def faultedDemo : State := takeFault demo { cause := .divideByZero, info := 7 }

theorem witness_DecodeOfEncodeGivesInstruction :
    (Instr.addRl 0x1A 0xFFFFFFFF).wf = true ∧ (Instr.unknown 0x3F).wf = true ∧
      (Instr.unknown 0x46).wf = true := by decide

theorem witness_DecodedWordsAreTheEncoding :
    decode [0x45, 0x40, 0x07, 0x25] = .ok (.svmLr 0x40 0x07, [0x25]) := rfl

theorem witness_UnknownOpcodeIsOneWordNoOp :
    (0x3F : Word) ∉ tableOpcodes ∧ (0x46 : Word) ∉ tableOpcodes ∧ (0x45 : Word) ∈ tableOpcodes := by
  decide

theorem witness_RegisterAddressMap : 0x1A < (0x1B : Word).toNat := by decide

theorem witness_RegisterWriteThenReadGivesValue :
    regOfWord 0x00 = some .cflags ∧ regOfWord 0x1A = some (.s 3) := ⟨rfl, rfl⟩

theorem witness_MemoryAccessIsRangeChecked :
    demo.ramCapacity ≤ (0x100 : Word).toNat ∧ (0xFF : Word).toNat < demo.ramCapacity ∧
      Memory.wf demo.ram = true := by decide

theorem witness_IntRegisterCallsInterrupt :
    regOfWord 0x1A = some (.s 3) ∧ 0x1A < (0x1B : Word).toNat := by decide

theorem witness_DeadCpuNeverExecutesAgain :
    ({ pair with cpuAlive := false } : State).cpuAlive = false ∧
      ({ pair with cpuAlive := false } : State).host = [] ∧
      configOk { pair with cpuAlive := false } = true := by decide

theorem witness_MovLiteralWritesDestination :
    regOfWord 0x1A = some (.s 3) ∧ regOfWord 0x02 = some .pc ∧ 0x1A < (0x1B : Word).toNat := by decide

theorem witness_MovRegisterCopiesSource :
    regOfWord 0x02 = some .pc ∧ regOfWord 0x1A = some (.s 3) ∧ (0x1A : Word).toNat ≤ 0x1A ∧
      0x1A < (0x1B : Word).toNat := by decide

theorem witness_CompareWritesFlags :
    regOfWord 0x01 = some .flags ∧ regOfWord 0x1A = some (.s 3) ∧ (0x1A : Word).toNat ≤ 0x1A ∧
      0x1A < (0x1B : Word).toNat := by decide

theorem witness_FlagOperationsAreIndependent : 8 ≤ flagBit .twoCompared + 1 := by decide

theorem witness_ArithmeticLiteralResult :
    0x1A < (0x1B : Word).toNat ∧ demo.arithViaLoad = false ∧ regOfWord 0x1A = some (.s 3) ∧
      (AluOp.div = .div ∧ (0 : Word) = 0) ∧ ¬(AluOp.div = .div ∧ (1 : Word) = 0) ∧
      ¬(AluOp.add = .div ∧ (0 : Word) = 0) := by decide

theorem witness_ArithmeticRegisterResult :
    0x1A < (0x1B : Word).toNat ∧ (0x1A : Word).toNat ≤ 0x1A ∧ demo.arithViaLoad = false ∧
      regOfWord 0x1A = some (.s 3) ∧ regOfWord 0x04 = some .bp ∧
      (AluOp.div = .div ∧ getReg demo (.s 3) = 0) ∧ ¬(AluOp.div = .div ∧ getReg demo .bp = 0) := by
  decide

theorem witness_NotComplementsRegister :
    0x1A < (0x1B : Word).toNat ∧ demo.arithViaLoad = false ∧ regOfWord 0x1A = some (.s 3) := by decide

theorem witness_ArithmeticThroughLoad :
    ({ demo with arithViaLoad := true } : State).arithViaLoad = true ∧
      regOfWord 0x1A = some (.s 3) ∧ regOfWord 0x04 = some .bp ∧
      getReg { demo with arithViaLoad := true } (.s 3) = 0 ∧
      getReg { demo with arithViaLoad := true } .bp ≠ 0 ∧
      Instr.addRl 0x1A 0 = arithRlForm .add 0x1A 0 ∧
      Instr.norRr 0x04 0x1A = arithRrForm .nor 0x04 0x1A := by decide

theorem witness_NotThroughLoad :
    ({ demo with arithViaLoad := true } : State).arithViaLoad = true ∧
      regOfWord 0x01 = some .flags := by decide

theorem witness_AluPrimitiveRules : (0 : Word) = 0 ∧ (1 : Word) ≠ 0 ∧ 31 < 32 := by decide

theorem witness_LoadFillsEverySlot :
    (coreList pair)[1]? = some demo.core ∧ (0 : Word) = 0 ∧ (1 : Word) ≠ 0 := by decide

theorem witness_ShiftByLiteralResult :
    (Instr.rshiftCarryRl 0x1A 32, 0x36, ShiftDir.right) ∈ shiftRlForms 0x1A 32 ∧
      0x1A < (0x1B : Word).toNat ∧ regOfWord 0x1A = some (.s 3) := by decide

/-- The two sides of the bound on the count. -/
theorem witness_ShiftByLiteralResult_counts : (31 : Word).toNat ≤ 31 ∧ ¬(32 : Word).toNat ≤ 31 := by
  decide

theorem witness_ShiftByRegisterResult :
    (Instr.lshiftRr 0x1A 0x04, 0x27, ShiftDir.left) ∈ shiftRrForms 0x1A 0x04 ∧
      0x1A < (0x1B : Word).toNat ∧ (0x1A : Word).toNat ≤ 0x1A ∧ regOfWord 0x1A = some (.s 3) ∧
      regOfWord 0x04 = some .bp := by decide

/-- Both outcomes of one condition occur. -/
theorem witness_ConditionalJumpToLiteral :
    (Instr.jlteqL 0x50, 0x30, true) ∈ jumpLForms 0x50 (regs [(.flags, 0x84)]).core.flags ∧
      (Instr.jlteqL 0x50, 0x30, false) ∈ jumpLForms 0x50 (regs [(.flags, 0x82)]).core.flags := by
  decide

theorem witness_ConditionalJumpThroughRegister :
    (Instr.jneqR 0x1A, 0x11, true) ∈ jumpRForms 0x1A (regs [(.flags, 0x84)]).core.flags ∧
      (Instr.jneqR 0x1B, 0x11, false) ∈ jumpRForms 0x1B (regs [(.flags, 0x81)]).core.flags ∧
      0x1A < (0x1B : Word).toNat ∧ regOfWord 0x1A = some (.s 3) := by decide

theorem witness_UnconditionalJump :
    regOfWord 0x1A = some (.s 3) ∧ 0x1A < (0x1B : Word).toNat := by decide

theorem witness_CallPushesReturnAddress :
    Memory.wf stacked.ram = true ∧ stacked.core.sp.toNat < stacked.ramCapacity ∧
      Memory.wf demo.ram = true ∧ demo.ramCapacity ≤ demo.core.sp.toNat ∧
      0x1A < (0x1B : Word).toNat ∧ regOfWord 0x03 = some .sp := by decide

/-- An empty stack, the last word that can be popped, and the word after it. -/
theorem witness_RetPopsReturnAddress :
    (stacked.core.bp.toNat ≤ stacked.core.sp.toNat) ∧
      ((regs [(.sp, 0xFE), (.bp, 0xFF)]).core.sp.toNat < (regs [(.sp, 0xFE), (.bp, 0xFF)]).core.bp.toNat ∧
        (regs [(.sp, 0xFE), (.bp, 0xFF)]).core.sp.toNat + 1 < demo.ramCapacity) ∧
      (regs [(.sp, 0xFF)]).core.sp.toNat < (regs [(.sp, 0xFF)]).core.bp.toNat ∧
      (regs [(.sp, 0xFF)]).ramCapacity ≤ (regs [(.sp, 0xFF)]).core.sp.toNat + 1 := by decide

/-- Three words on a stack of exactly that depth above address 0, and the base itself. -/
theorem witness_StackRoundTrip :
    Memory.wf (regs [(.sp, 3), (.bp, 3)]).ram = true ∧
      (regs [(.sp, 3), (.bp, 3)]).core.sp.toNat < demo.ramCapacity ∧
      ([1, 2, 3] : List Word).length ≤ (regs [(.sp, 3), (.bp, 3)]).core.sp.toNat ∧
      (regs [(.sp, 3), (.bp, 3)]).core.sp.toNat ≤ (regs [(.sp, 3), (.bp, 3)]).core.bp.toNat ∧
      (regs [(.sp, 3), (.bp, 3)]).core.sp = (regs [(.sp, 3), (.bp, 3)]).core.bp := by decide

theorem witness_LoadReadsRam :
    0x1A < (0x1B : Word).toNat ∧ regOfWord 0x1A = some (.s 3) ∧ (0xFF : Word).toNat < demo.ramCapacity ∧
      demo.ramCapacity ≤ (0x100 : Word).toNat ∧ regOfWord 0x03 = some .sp ∧
      (getReg stacked .sp).toNat < stacked.ramCapacity ∧ demo.ramCapacity ≤ (getReg demo .sp).toNat := by
  decide

theorem witness_StoreLiteralWritesRam :
    Memory.wf demo.ram = true ∧ (0xFF : Word).toNat < demo.ramCapacity ∧
      demo.ramCapacity ≤ (0x100 : Word).toNat ∧ 0x1A < (0x1B : Word).toNat ∧ regOfWord 0x03 = some .sp ∧
      (getReg stacked .sp).toNat < stacked.ramCapacity ∧ demo.ramCapacity ≤ (getReg demo .sp).toNat ∧
      Memory.wf stacked.ram = true := by decide

theorem witness_StoreRegisterWritesRam :
    Memory.wf demo.ram = true ∧ (0xFF : Word).toNat < demo.ramCapacity ∧
      demo.ramCapacity ≤ (0x100 : Word).toNat ∧ 0x1A < (0x1B : Word).toNat ∧ (0x1A : Word).toNat ≤ 0x1A ∧
      regOfWord 0x1A = some (.s 3) ∧ regOfWord 0x03 = some .sp ∧
      (getReg stacked .sp).toNat < stacked.ramCapacity ∧ demo.ramCapacity ≤ (getReg demo .sp).toNat ∧
      Memory.wf stacked.ram = true := by decide

theorem witness_OnlyNamedRegistersChange :
    demo.arithViaLoad = false ∧ (∃ t, exec (.addRl 0x07 0x03) demo = .next t) ∧
      destWord (.addRl 0x07 0x03) = some 0x07 ∧ regOfWord 0x07 ≠ some (.g 1) ∧
      Reg.g 1 ∉ implicitRegs (.addRl 0x07 0x03) := by
  exact ⟨rfl, ⟨_, rfl⟩, rfl, by decide, by decide⟩

theorem witness_OnlyStoresAndCallsChangeRam :
    (∃ t, exec (.addRl 0x07 0x03) demo = .next t) ∧ mayStore (.addRl 0x07 0x03) = false :=
  ⟨⟨_, rfl⟩, rfl⟩

theorem witness_OtherCoresAreUntouched :
    Instr.addRl 0x07 0x03 ≠ .halt ∧ ∃ t, exec (.addRl 0x07 0x03) pair = .next t :=
  ⟨by decide, _, rfl⟩

theorem witness_InstructionKillsOnlyByHaltOrFault :
    Instr.addRl 0x1B 0x03 ≠ .halt ∧ demo.core.alive = true ∧
      ∃ t, exec (.addRl 0x1B 0x03) demo = .next t ∧ t.core.alive = false :=
  ⟨by decide, rfl, _, rfl, rfl⟩

theorem witness_FaultRecordIsSticky :
    (∃ t, step faultedDemo = .next t) ∧ (coreList faultedDemo)[0]? = some faultedDemo.core ∧
      faultedDemo.core.fault = some { cause := .divideByZero, info := 7, address := 0x20 } :=
  ⟨⟨_, rfl⟩, rfl, rfl⟩

/-- The opcode word at the first address past RAM; `MOV_RL` with its first and with its second operand word
there. -/
theorem witness_FetchOutOfRangeFaults :
    (configOk demo = true ∧ turnStarts demo demo ∧ demo.cpuAlive = true ∧ demo.core.alive = true) ∧
      turnStarts { demo with host := [.tick] } demo ∧
      demo.ramCapacity ≤ (atPc demo 0x100).core.pc.toNat ∧
      ((atPc demo 0xFF).core.pc.toNat + 1 = demo.ramCapacity ∧
        1 ≤ (shapeOf (readWord [(0xFF, 0x03)] 0xFF)).operandCount) ∧
      ((atPc demo 0xFE).core.pc.toNat + 2 = demo.ramCapacity ∧
        (shapeOf (readWord [(0xFE, 0x03)] 0xFE)).operandCount = 2) :=
  ⟨⟨rfl, .inl ⟨.inr rfl, rfl⟩, rfl, rfl⟩, .inr ⟨rfl, [], rfl, rfl⟩, by decide, by decide, by decide⟩

/-- `MOV_RL G0, 3` in the last three words of RAM, in a turn of its own and in a host's tick. -/
theorem witness_StepRunsDecodedInstruction :
    let s := { atPc demo 0xFD with ram := [(0xFD, 0x03), (0xFE, 0x07), (0xFF, 0x03)] }
    configOk s = true ∧ s.cpuAlive = true ∧ s.core.alive = true ∧
      decode [readWord s.ram s.core.pc.toNat, readWord s.ram (s.core.pc.toNat + 1),
        readWord s.ram (s.core.pc.toNat + 2)] = .ok (.movRl 0x07 0x03, []) ∧
      s.core.pc.toNat + (encode (.movRl 0x07 0x03)).length ≤ s.ramCapacity ∧ coresTurn s ∧
      s.coresBefore = [] ∧ ({ s with host := [.tick] } : State).host = .tick :: [] :=
  ⟨rfl, rfl, rfl, rfl, by decide, .inr rfl, rfl, rfl⟩

/-- A dead Core of a live CPU, and a live Core of a dead CPU, the second in a tick the host asks for. -/
theorem witness_DeadCoreIgnoresTicks :
    (configOk faultedDemo = true ∧ turnStarts faultedDemo faultedDemo ∧ faultedDemo.core.alive = false) ∧
      configOk { demo with cpuAlive := false, host := [.tick] } = true ∧
      turnStarts { demo with cpuAlive := false, host := [.tick] } { demo with cpuAlive := false } :=
  ⟨⟨rfl, .inl ⟨.inr rfl, rfl⟩, rfl⟩, rfl, .inr ⟨rfl, [], rfl, rfl⟩⟩

theorem witness_TurnPassesInCoreListOrder :
    (∃ t, coreTurn pair = .next t) ∧ turnOf pair + 1 ≠ nCores pair ∧ turnOf demo + 1 = nCores demo :=
  ⟨⟨_, rfl⟩, by decide, by decide⟩

/-- Two Cores, in a tick that goes on by itself and in one the host asks for. -/
theorem witness_StepsOfAllCoresAreOneTick :
    (configOk pair = true ∧ pair.coresBefore = [] ∧ turnStarts pair pair ∧ nCores pair = 2) ∧
      configOk { pair with host := [.tick] } = true ∧ turnStarts { pair with host := [.tick] } pair :=
  ⟨⟨rfl, rfl, .inl ⟨.inr rfl, rfl⟩, rfl⟩, rfl, .inr ⟨rfl, [], rfl, rfl⟩⟩

/-- Each kind of refusal occurs. -/
theorem witness_StepRefusesOnlyWhatTheSpecRefuses :
    configOk { demo with ramCapacity := 0 } = false ∧
      (configOk demo = true ∧ demo.coresBefore = [] ∧ demo.booted = true ∧
        ({ demo with host := [.bootup] } : State).host.head? = some .bootup) ∧
      nCores demo ≤ 1 ∧ ({ demo with host := [.activate 1] } : State).host.head? = some (.activate 1) := by
  decide

/-- The last word of the disk of four words, and the first RAM word after the copy. -/
theorem witness_BootupCopiesBootloader :
    configOk booting = true ∧ booting.booted = false ∧ booting.coresBefore = [] ∧
      Memory.wf booting.ram = true ∧ booting.host = .bootup :: [] ∧ 3 < 100 ∧
      booting.disk[3]? = some 0x25 ∧ booting.disk.length ≤ 4 := by decide

/-- V16.2, a disk of 150 words: the last word copied and the first that is not. -/
theorem witness_BootupCopiesBootloader_long_disk :
    bootLength (List.replicate 150 (7 : Word)).length = 100 ∧ 99 < 100 ∧
      (List.replicate 150 (7 : Word))[99]? = some 7 ∧ (List.replicate 150 (7 : Word))[100]? = some 7 := by
  simp [bootLength]

theorem witness_ActivateSetsAliveFlag :
    let s : State := { pair with host := [.activate 1] }
    configOk s = true ∧ s.coresBefore = [] ∧ s.host = .activate 1 :: [] ∧
      (coreList s)[1]? = some demo.core := by decide

/-- Device B of V14 at its ceiling 0x109, after device A, before device C. -/
theorem witness_BusReadLastMatchWins :
    let a : Device := { mem := [10, 11, 12, 13], floor := 0x100, ceil := 0x103 }
    let b : Device := { mem := [20, 21, 22, 23, 24, 25, 26, 27], floor := 0x102, ceil := 0x109 }
    let c : Device := { mem := [0, 0], floor := 0x300, ceil := 0x303 }
    (getBus bench .north).devices = [a] ++ b :: [c] ∧
      (∀ e ∈ [a], inRange e 0x109 → fits e 0x109) ∧ inRange b 0x109 ∧
      b.mem[(0x109 : Word).toNat - b.floor.toNat]? = some 27 ∧ ∀ e ∈ [c], ¬inRange e 0x109 := by
  unfold inRange fits
  decide

/-- One past the ceiling of device B. -/
theorem witness_UnclaimedBusAccess :
    ∀ e ∈ (getBus bench .north).devices, ¬inRange e 0x10A := by
  unfold inRange
  decide

/-- 0x103, the ceiling of device A, is also in the range of device B. -/
theorem witness_BusWriteReachesAllMatches :
    ∀ e ∈ (getBus bench .north).devices, inRange e 0x103 → fits e 0x103 := by
  unfold inRange fits
  decide

/-- Device C at 0x302, the first address past its two words, which no earlier device claims. -/
theorem witness_BusAccessPastDeviceEnd :
    let a : Device := { mem := [10, 11, 12, 13], floor := 0x100, ceil := 0x103 }
    let b : Device := { mem := [20, 21, 22, 23, 24, 25, 26, 27], floor := 0x102, ceil := 0x109 }
    let c : Device := { mem := [0, 0], floor := 0x300, ceil := 0x303 }
    (getBus bench .north).devices = [a, b] ++ c :: [] ∧
      (∀ e ∈ [a, b], inRange e 0x302 → fits e 0x302) ∧ inRange c 0x302 ∧ ¬fits c 0x302 ∧
      ∀ e ∈ [a, b], ¬inRange e 0x302 := by
  unfold inRange fits
  decide

/-- The same with an earlier device that holds a word at the address, the last one of its range. -/
theorem witness_BusAccessPastDeviceEnd_earlier_match :
    let a : Device := { mem := [10, 11, 12], floor := 0x300, ceil := 0x302 }
    let b : Device := { mem := [20], floor := 0x303, ceil := 0x303 }
    let c : Device := { mem := [0, 0], floor := 0x300, ceil := 0x303 }
    (∀ e ∈ [a, b], inRange e 0x302 → fits e 0x302) ∧ inRange c 0x302 ∧ ¬fits c 0x302 ∧
      [a, b] = [] ++ a :: [b] ∧ inRange a 0x302 ∧
      a.mem[(0x302 : Word).toNat - a.floor.toNat]? = some 12 ∧ ∀ f ∈ [b], ¬inRange f 0x302 := by
  unfold inRange fits
  decide

theorem witness_EveryStepKeepsInvariant : Inv demo ∧ ∃ t, step demo = .next t :=
  ⟨⟨rfl, fun _ h => (List.not_mem_nil h).elim, rfl⟩, _, rfl⟩

theorem witness_ResetHasInvariant : defaultConfig.valid = true := by decide

theorem witness_EveryStepKeepsConfiguration : ∃ t, step demo = .next t := ⟨_, rfl⟩

theorem witness_ModuloSlotIsNeverWritten :
    (∃ t, step pair = .next t) ∧ (coreList pair)[1]? = some demo.core := ⟨⟨_, rfl⟩, rfl⟩

end Sys2Proof.Tests
end

/-! PROOFS of the family 10_state.md. First what an instruction can do, said once over all instructions
(`exec_answers`), and what no step can change (`step_fixedPart`); then the obligations. -/

namespace Sys2Proof.Machine

open Sys2Proof.Claims

/-! ### Flags -/

theorem flagBit_lt (f : Flag) : flagBit f < 8 := by cases f <;> decide

theorem flagBit_inj (f h : Flag) : flagBit f = flagBit h ↔ f = h := by
  cases f <;> cases h <;> decide

/-- The one bit that setting and clearing a flag are about (10_state.md R35). -/
theorem getLsbD_flagMask (f : Flag) (n : Nat) :
    (1#32 <<< flagBit f).getLsbD n = decide (n = flagBit f) := by
  have hf := flagBit_lt f
  simp only [BitVec.getLsbD_shiftLeft, BitVec.getLsbD_one]
  by_cases hn : n = flagBit f
  · simp [hn]; omega
  · simp [hn]; omega

/-- Setting a flag sets its bit and keeps every other one (10_state.md R35). -/
theorem getLsbD_setFlag (f : Flag) (reg : Word) (n : Nat) :
    (setFlag f reg).getLsbD n = (reg.getLsbD n || decide (n = flagBit f)) := by
  rw [setFlag, BitVec.getLsbD_or, getLsbD_flagMask]

/-- Clearing a flag clears its bit and keeps every other one (10_state.md R35). -/
theorem getLsbD_clearFlag (f : Flag) (reg : Word) (n : Nat) :
    (clearFlag f reg).getLsbD n = (reg.getLsbD n && !decide (n = flagBit f)) := by
  rw [clearFlag, BitVec.getLsbD_and, BitVec.getLsbD_not, getLsbD_flagMask]
  by_cases hn : n < 32
  · simp [hn]
  · simp [BitVec.getLsbD_of_ge reg n (Nat.le_of_not_lt hn)]

/-! ### Registers -/

/-- Valid register addresses are equal exactly if they name the same register (10_state.md R26). -/
theorem regOfWord_eq_iff {a b : Word} {r q : Reg} (ha : regOfWord a = some r)
    (hb : regOfWord b = some q) : b = a ↔ q = r :=
  ⟨fun e => Option.some.inj (hb.symm.trans (e ▸ ha)), fun e => regOfWord_injective b a r (e ▸ hb) ha⟩

/-- A register write changes nothing that is not a register (10_state.md R25). -/
theorem setReg_restKept (s : State) (r : Reg) (v : Word) : restKept s (setReg s r v) := by
  cases r <;> rfl

/-! ### Interrupts -/

/-- An interrupt changes no part of the state but `G1`, `G2` and the display port
(60_exceptions.md R271 to R275). -/
theorem callInterrupt_eq (s : State) (vector : Word) :
    ∃ pixels displayInputs g, callInterrupt s vector =
      { s with pixels := pixels, displayInputs := displayInputs, core := { s.core with g := g } } := by
  rcases callInterrupt_cases s vector with ⟨_, e⟩ | ⟨_, _, e⟩ | ⟨_, _, e⟩
  · exact ⟨s.pixels, s.displayInputs, s.core.g, e⟩
  · exact ⟨_, s.displayInputs, s.core.g, e⟩
  · rw [e, resolutionTask, sampleDisplay]
    cases s.displayInputs with
    | nil => exact ⟨s.pixels, _, _, rfl⟩
    | cons d rest => exact ⟨s.pixels, rest, _, rfl⟩

/-- An interrupt writes no register but `G1` and `G2` (60_exceptions.md R274). -/
theorem getReg_callInterrupt (s : State) (vector : Word) (q : Reg) (h1 : q ≠ .g 1) (h2 : q ≠ .g 2) :
    getReg (callInterrupt s vector) q = getReg s q := by
  rcases callInterrupt_cases s vector with ⟨_, e⟩ | ⟨_, _, e⟩ | ⟨_, _, e⟩
  · rw [e]
  · rw [e]; cases q <;> rfl
  · rw [e, resolutionTask, getReg_setReg_other _ _ _ _ h2, getReg_setReg_other _ _ _ _ h1, sampleDisplay]
    cases s.displayInputs <;> cases q <;> rfl

/-! ### What an instruction can do -/

/-- The instruction names the register as its destination, or writes it implicitly. -/
def Writes (i : Instr) (r : Reg) : Prop :=
  r ∈ implicitRegs i ∨ ∃ d, destWord i = some d ∧ regOfWord d = some r

theorem Writes.implicitFst {i : Instr} {r : Reg} {rs : List Reg} (h : implicitRegs i = r :: rs) :
    Writes i r :=
  .inl (h ▸ List.mem_cons_self)

theorem Writes.implicitSnd {i : Instr} {q r : Reg} {rs : List Reg}
    (h : implicitRegs i = q :: r :: rs) : Writes i r :=
  .inl (h ▸ List.mem_cons_of_mem q List.mem_cons_self)

theorem Writes.dest {i : Instr} {d : Word} {r : Reg} (hd : destWord i = some d)
    (hr : regOfWord d = some r) : Writes i r :=
  .inr ⟨d, hd, hr⟩

/-- The ways an instruction can end, each with the whole next state up to the words written. -/
inductive Effect (i : Instr) (s : State) : State → Prop
  /-- It faults (60_exceptions.md R262). -/
  | fault (f : FaultSignal) : Effect i s (takeFault s f)
  /-- It writes `PC` alone. -/
  | onlyPc (pc : Word) : Effect i s (writeBack s pc)
  /-- It writes one register and `PC`. -/
  | oneReg {r : Reg} (v pc : Word) (hr : Writes i r) : Effect i s (writeBack (setReg s r v) pc)
  /-- It loads the ALU's cache and writes one register and `PC` (40_alu_unit.md R139). -/
  | throughLoad {r : Reg} {p : Vector Word 13} (flags v pc : Word) (hl : s.arithViaLoad = true)
      (hp : p[6] = s.core.p[6]) (hr : Writes i r) :
      Effect i s (writeBack
        (setReg { s with core := { s.core with flags := flags, p := p } } r v) pc)
  /-- It stores a word (47_load_store.md R240). -/
  | store {a : Nat} (v pc : Word) (hi : mayStore i = true) (ha : a < s.ramCapacity) :
      Effect i s (writeBack { s with ram := writeWord s.ram a v } pc)
  /-- It pushes a word and jumps (46_control.md R227). -/
  | push (v pc : Word) (hi : mayStore i = true) (hr : Writes i .sp)
      (ha : s.core.sp.toNat < s.ramCapacity) :
      Effect i s (writeBack { setReg s .sp (s.core.sp - 1) with
        ram := writeWord s.ram s.core.sp.toNat v } pc)
  /-- It calls an interrupt (41_system.md R151). -/
  | interrupt (vector pc : Word) (h1 : Writes i (.g 1)) (h2 : Writes i (.g 2)) :
      Effect i s (writeBack (callInterrupt s vector) pc)
  /-- It halts the machine (41_system.md R153). -/
  | halt (pc : Word) (hi : i = .halt) : Effect i s (writeBack (callHalt s) pc)

/-- The answer of the instruction `i` in `s` is a next state, which one of its effects gives. -/
def Answers (i : Instr) (s : State) (x : Result) : Prop :=
  ∃ t, x = .next t ∧ Effect i s t

section
variable {i : Instr} {s : State}

theorem answers_next {t : State} (h : Effect i s t) : Answers i s (.next t) :=
  ⟨t, rfl, h⟩

theorem answers_orFault {α : Type} {x : Except FaultSignal α} {k : α → Result}
    (h : ∀ a, x = .ok a → Answers i s (k a)) : Answers i s (orFault s x k) := by
  cases x with
  | ok a => exact h a rfl
  | error f => exact answers_next (.fault f)

theorem answers_withReg {w : Word} {k : Reg → Result}
    (h : ∀ r, regOfWord w = some r → Answers i s (k r)) : Answers i s (withReg s w k) := by
  rcases withReg_cases s w k with ⟨r, hr, e⟩ | ⟨_, e⟩ <;> rw [e]
  · exact h r hr
  · exact answers_next (.fault _)

theorem answers_withRegs {v w : Word} {k : Reg → Reg → Result}
    (h : ∀ r q, regOfWord v = some r → Answers i s (k r q)) : Answers i s (withRegs s v w k) :=
  answers_withReg fun r hr => answers_withReg fun q _ => h r q hr

/-! The last parts of the instruction families. -/

theorem arithInto_answers {op : AluOp} {r : Reg} {a b : Word} (hr : Writes i r) :
    Answers i s (arithInto op r a b s) := by
  refine answers_orFault fun (c, v) h => answers_next ?_
  rcases Bool.eq_false_or_eq_true s.arithViaLoad with hl | hl
  · obtain ⟨flags, p, rfl, hp⟩ := aluCompute_core _ op s.core c a b v h
    exact .throughLoad _ _ _ hl hp hr
  · rw [hl] at h
    rcases aluCompute_direct_cases op s.core a b with ⟨_, _, e⟩ | ⟨_, e⟩ <;> cases e.symm.trans h
    exact .oneReg _ _ hr

theorem branchTo_answers {cond : Word → Bool} {target : Word} : Answers i s (branchTo cond target s) := by
  unfold branchTo
  split <;> exact answers_next (.onlyPc _)

theorem compareInto_answers {a b : Word} (hr : Writes i .flags) : Answers i s (compareInto a b s) :=
  answers_next (.oneReg (r := .flags) _ _ hr)

theorem callTo_answers {target : Word} (hi : mayStore i = true) (hr : Writes i .sp) :
    Answers i s (callTo target s) := by
  rcases Nat.lt_or_ge s.core.sp.toNat s.ramCapacity with h | h
  · exact callTo_inRange target s h ▸ answers_next (.push _ _ hi hr h)
  · exact callTo_outOfRange target s h ▸ answers_next (.fault _)

theorem loadInto_answers {r : Reg} {a : Word} (hr : Writes i r) : Answers i s (loadInto r a s) :=
  answers_orFault fun _ _ => answers_next (.oneReg _ _ hr)

theorem storeAt_answers {a v : Word} (hi : mayStore i = true) : Answers i s (storeAt a v s) := by
  rcases Nat.lt_or_ge a.toNat s.ramCapacity with h | h
  · exact storeAt_inRange a v s h ▸ answers_next (.store _ _ hi h)
  · exact storeAt_outOfRange a v s h ▸ answers_next (.fault _)

theorem interrupt_answers {vector pc words : Word} (h1 : Writes i (.g 1)) (h2 : Writes i (.g 2)) :
    Answers i s (retire pc words (callInterrupt s vector)) :=
  answers_next (.interrupt _ _ h1 h2)

/-! The families whose destination is their first operand, and the two that share nothing. -/

theorem arithRl_answers {op : AluOp} {d v : Word} (hd : destWord i = some d) :
    Answers i s (arithRl op d v s) :=
  answers_withReg fun _ hr => arithInto_answers (.dest hd hr)

theorem arithRr_answers {op : AluOp} {d w : Word} (hd : destWord i = some d) :
    Answers i s (arithRr op d w s) :=
  answers_withRegs fun _ _ hr => arithInto_answers (.dest hd hr)

theorem shiftRl_answers {shift : Word → Word → Word} {d v : Word} (hd : destWord i = some d) :
    Answers i s (shiftRl shift d v s) :=
  answers_withReg fun _ hr => answers_next (.oneReg _ _ (.dest hd hr))

theorem shiftRr_answers {shift : Word → Word → Word} {d w : Word} (hd : destWord i = some d) :
    Answers i s (shiftRr shift d w s) :=
  answers_withRegs fun _ _ hr => answers_next (.oneReg _ _ (.dest hd hr))

theorem execNotR_answers {d : Word} (hd : destWord i = some d) : Answers i s (execNotR d s) := by
  refine answers_withReg fun r hr => ?_
  rw [aluComputeNot_eq, orFault_ok]
  have hw : Writes i r := .dest hd hr
  rcases Bool.eq_false_or_eq_true s.arithViaLoad with hl | hl
  · rw [if_pos hl]
    exact answers_next (.throughLoad _ _ _ hl (cachedResults_slot _ _ _ _ _ .modulo) hw)
  · rw [if_neg (by simp [hl])]
    exact answers_next (.oneReg _ _ hw)

theorem execRet_answers (hr : Writes i .sp) : Answers i s (execRet s) := by
  unfold execRet
  rcases stackPop_cases s with ⟨_, e⟩ | ⟨_, _, e⟩ | ⟨_, _, e⟩ <;> rw [e]
  · exact answers_next (.onlyPc _)
  · exact answers_next (.oneReg (r := .sp) _ _ hr)
  · exact answers_next (.fault _)

end

/-- All that an instruction can do: it answers a next state, by one of the effects. -/
theorem exec_answers (i : Instr) (s : State) : Answers i s (exec i s) := by
  cases i with
  | nop | unknown => exact answers_next (.onlyPc _)
  | intL => exact interrupt_answers (.implicitFst rfl) (.implicitSnd rfl)
  | intR => exact answers_withReg fun _ _ => interrupt_answers (.implicitFst rfl) (.implicitSnd rfl)
  | halt => exact answers_next (.halt _ rfl)
  | movRl => exact answers_withReg fun _ hr => answers_next (.oneReg _ _ (.dest rfl hr))
  | movRr => exact answers_withRegs fun _ _ hr => answers_next (.oneReg _ _ (.dest rfl hr))
  | compLl => exact compareInto_answers (.implicitFst rfl)
  | compRl => exact answers_withReg fun _ _ => compareInto_answers (.implicitFst rfl)
  | compRr => exact answers_withRegs fun _ _ _ => compareInto_answers (.implicitFst rfl)
  | addRl | subRl | mulRl | divRl | powRl | andRl | orRl | norRl | xorRl => exact arithRl_answers rfl
  | addRr | subRr | mulRr | divRr | powRr | andRr | orRr | norRr | xorRr => exact arithRr_answers rfl
  | notR => exact execNotR_answers rfl
  | lshiftRl | rshiftRl | lshiftCarryRl | rshiftCarryRl => exact shiftRl_answers rfl
  | lshiftRr | rshiftRr | lshiftCarryRr | rshiftCarryRr => exact shiftRr_answers rfl
  | jeqL | jltL | jgtL | jneqL | jgteqL | jlteqL => exact branchTo_answers
  | jeqR | jltR | jgtR | jneqR | jgteqR | jlteqR => exact answers_withReg fun _ _ => branchTo_answers
  | jmpL => exact answers_next (.onlyPc _)
  | jmpR => exact answers_withReg fun _ _ => answers_next (.onlyPc _)
  | callL => exact callTo_answers rfl (.implicitFst rfl)
  | callR => exact answers_withReg fun _ _ => callTo_answers rfl (.implicitFst rfl)
  | ret => exact execRet_answers (.implicitFst rfl)
  | ldmRl => exact answers_withReg fun _ hr => loadInto_answers (.dest rfl hr)
  | ldmRr => exact answers_withRegs fun _ _ hr => loadInto_answers (.dest rfl hr)
  | svmLl => exact storeAt_answers rfl
  | svmRl | svmLr => exact answers_withReg fun _ _ => storeAt_answers rfl
  | svmRr => exact answers_withRegs fun _ _ _ => storeAt_answers rfl

theorem effect_of_exec {i : Instr} {s t : State} (h : exec i s = .next t) : Effect i s t := by
  obtain ⟨u, hu, effect⟩ := exec_answers i s
  cases hu.symm.trans h
  exact effect

/-- With `ARITH_VIA_LOAD = false` no effect writes a register that the instruction neither names nor
implies, `PC` apart (10_state.md R36). -/
theorem Effect.getReg {i : Instr} {s t : State} (h : Effect i s t) (hl : s.arithViaLoad = false)
    (q : Reg) (hpc : q ≠ .pc) (hq : ¬Writes i q) : getReg t q = getReg s q := by
  have other : ∀ {r}, Writes i r → q ≠ r := fun hr e => hq (e ▸ hr)
  cases h with
  | fault f => exact getReg_takeFault s f q
  | throughLoad _ _ _ hl' => exact absurd (hl.symm.trans hl') Bool.false_ne_true
  | onlyPc => exact getReg_writeBack_other _ _ _ hpc
  | oneReg v pc hr => rw [getReg_writeBack_other _ _ _ hpc, getReg_setReg_other _ _ _ _ (other hr)]
  | store => rw [getReg_writeBack_other _ _ _ hpc]; cases q <;> rfl
  | push v pc _ hr =>
    rw [getReg_writeBack_other _ _ _ hpc]
    exact .trans (by cases q <;> rfl) (getReg_setReg_other s .sp q (s.core.sp - 1) (other hr))
  | interrupt vector _ h1 h2 =>
    rw [getReg_writeBack_other _ _ _ hpc, getReg_callInterrupt _ _ _ (other h1) (other h2)]
  | halt => rw [getReg_writeBack_other _ _ _ hpc, getReg_callHalt]

/-- With `ARITH_VIA_LOAD = false` no effect writes a protected register (10_state.md R39). -/
theorem Effect.core_p {i : Instr} {s t : State} (h : Effect i s t) (hl : s.arithViaLoad = false) :
    t.core.p = s.core.p := by
  cases h with
  | throughLoad _ _ _ hl' => exact absurd (hl.symm.trans hl') Bool.false_ne_true
  | interrupt vector =>
    obtain ⟨_, _, _, e⟩ := callInterrupt_eq s vector
    rw [writeBack_core_p, e]
  | _ => simp

/-- An effect keeps the executing Core's alive flag, or it is a fault's, whose record is then set, or a
halt's (60_exceptions.md R262, R287). -/
theorem Effect.core_alive {i : Instr} {s t : State} (h : Effect i s t) :
    t.core.alive = s.core.alive ∨ t.core.alive = false ∧ (i ≠ .halt → t.core.fault.isSome = true) := by
  cases h with
  | fault f => exact .inr ⟨rfl, fun _ => by rw [takeFault_core_fault]; rfl⟩
  | halt pc hi => exact .inr ⟨rfl, absurd hi⟩
  | interrupt vector =>
    obtain ⟨_, _, _, e⟩ := callInterrupt_eq s vector
    exact .inl (by rw [writeBack_core_alive, e])
  | _ => exact .inl (by simp)

/-! ### What no step changes -/

/-- The range and the capacity of each device (20_memory.md R66, R67). -/
def deviceShapes (ds : List Device) : List (Word × Word × Nat) :=
  ds.map fun d => (d.floor, d.ceil, d.mem.length)

/-- What no step changes: the parameters (10_state.md R21), and the slot `MODULO` of each Core in core-list
order (R39). -/
structure FixedPart where
  ramCapacity : Nat
  disk : List Word
  arithViaLoad : Bool
  northShapes : List (Word × Word × Nat)
  southShapes : List (Word × Word × Nat)
  modulo : List Word

/-- The fixed part of a state. -/
def fixedPart (s : State) : FixedPart :=
  { ramCapacity := s.ramCapacity
    disk := s.disk
    arithViaLoad := s.arithViaLoad
    northShapes := deviceShapes s.north.devices
    southShapes := deviceShapes s.south.devices
    modulo := (coreList s).map fun c => c.p[6] }

theorem sameConfiguration_of_fixedPart {s t : State} (h : fixedPart t = fixedPart s) :
    sameConfiguration s t := by
  obtain ⟨hcap, hdisk, hload, hnorth, hsouth, hmodulo⟩ := FixedPart.mk.inj h
  refine ⟨hcap, hdisk, hload, ?_, fun b => ?_⟩
  · simpa [nCores] using congrArg List.length hmodulo
  · cases b with
    | north => exact hnorth
    | south => exact hsouth

@[simp] theorem fixedPart_takeFault (s : State) (f : FaultSignal) :
    fixedPart (takeFault s f) = fixedPart s := by
  simp [fixedPart, coreList]

@[simp] theorem fixedPart_writeBack (s : State) (v : Word) :
    fixedPart (writeBack s v) = fixedPart s := by
  simp [fixedPart, coreList]

@[simp] theorem fixedPart_setReg (s : State) (r : Reg) (v : Word) :
    fixedPart (setReg s r v) = fixedPart s := by
  simp [fixedPart, coreList]

@[simp] theorem fixedPart_callHalt (s : State) : fixedPart (callHalt s) = fixedPart s := by
  simp [fixedPart, coreList, Function.comp_def]

@[simp] theorem fixedPart_callInterrupt (s : State) (vector : Word) :
    fixedPart (callInterrupt s vector) = fixedPart s := by
  obtain ⟨_, _, _, e⟩ := callInterrupt_eq s vector
  simp [e, fixedPart, coreList]

@[simp] theorem fixedPart_endTurn (s : State) : fixedPart (endTurn s) = fixedPart s := by
  have hcores := coreList_endTurn s
  obtain ⟨before, core, after, e⟩ := endTurn_eq s
  rw [e] at hcores ⊢
  simp [fixedPart, hcores]

/-- Changing a Core without writing its slot `MODULO` keeps the fixed part. -/
theorem fixedPart_modifyCore (s : State) (i : Nat) (f : CoreState → CoreState)
    (h : ∀ c, (coreList s)[i]? = some c → (f c).p[6] = c.p[6]) :
    fixedPart (modifyCore s i f) = fixedPart s := by
  have hmodulo : (coreList (modifyCore s i f)).map (fun c => c.p[6]) =
      (coreList s).map fun c => c.p[6] := by
    rw [coreList_modifyCore]
    apply List.ext_getElem?
    intro j
    rw [List.getElem?_map, List.getElem?_map, List.getElem?_modify]
    by_cases hij : i = j
    · subst hij
      cases hc : (coreList s)[i]? with
      | none => rfl
      | some c => simp [h c hc]
    · simp [hij]
  obtain ⟨before, core, after, e⟩ := modifyCore_eq s i f
  rw [e] at hmodulo ⊢
  simp [fixedPart, hmodulo]

/-- A write on a Bus keeps every device's range and capacity (20_memory.md R69). -/
theorem deviceShapes_broadcastWrite (ds : List Device) (addr v : Word) :
    deviceShapes (broadcastWrite ds addr v).1 = deviceShapes ds := by
  induction ds with
  | nil => rfl
  | cons d ds ih =>
    unfold deviceShapes at ih ⊢
    rcases broadcastWrite_cons d ds addr v with ⟨_, e⟩ | ⟨_, _, e⟩ | ⟨_, _, e⟩ <;> simp [e, ih]

theorem fixedPart_busRead (b : BusId) (addr : Word) (s : State) :
    fixedPart (busRead b addr s) = fixedPart s := by
  cases b <;> rfl

theorem fixedPart_busWrite (b : BusId) (addr v : Word) (s : State) :
    fixedPart (busWrite b addr v s) = fixedPart s := by
  cases b <;>
    simp [fixedPart, busWrite, busWriteOn, getBus, setBus, coreList, deviceShapes_broadcastWrite]

/-- A load writes every slot but `MODULO` (40_alu_unit.md R136, R137). -/
theorem loadOne_modulo {c c' : CoreState} {a : Word} (h : loadOne c a = .ok c') : c'.p[6] = c.p[6] := by
  rw [loadOne_eq] at h
  cases h
  rfl

theorem loadTwo_modulo {c c' : CoreState} {a b : Word} (h : loadTwo c a b = .ok c') :
    c'.p[6] = c.p[6] := by
  rcases loadTwo_cases c a b with ⟨_, e⟩ | ⟨_, e⟩ <;> cases e.symm.trans h
  rfl

theorem Effect.fixedPart {i : Instr} {s t : State} (h : Effect i s t) : fixedPart t = fixedPart s := by
  cases h with
  | throughLoad flags v pc hl hp =>
    rw [fixedPart_writeBack, fixedPart_setReg]
    simp [Machine.fixedPart, coreList, hp]
  | store => rw [fixedPart_writeBack]; rfl
  | push => rw [fixedPart_writeBack]; exact fixedPart_setReg s .sp _
  | _ => simp

theorem coreTurn_fixedPart {s t : State} (h : coreTurn s = .next t) : fixedPart t = fixedPart s := by
  obtain ⟨u, hu, rfl⟩ := thenEndTurn_next h
  rw [fixedPart_endTurn]
  rcases coreStep_cases s with ⟨_, e⟩ | ⟨_, ⟨f, _, e⟩ | ⟨i, _, e⟩⟩
  · cases e.symm.trans hu; rfl
  · cases e.symm.trans hu; exact fixedPart_takeFault s f
  · exact (effect_of_exec (e.symm.trans hu)).fixedPart

theorem bootup_fixedPart {s t : State} (h : bootup s = .next t) : fixedPart t = fixedPart s := by
  unfold bootup at h
  split at h
  · cases h
  · cases h
    exact fixedPart_modifyCore _ _ _ fun _ _ => rfl

theorem activate_fixedPart {i : Nat} {s t : State} (h : activate i s = .next t) :
    fixedPart t = fixedPart s := by
  unfold activate at h
  split at h
  · cases h
    exact fixedPart_modifyCore _ _ _ fun _ _ => rfl
  · cases h

theorem hostLoad_fixedPart {i : Nat} {load : CoreState → Except FaultSignal CoreState} {s t : State}
    (hload : ∀ c c', load c = .ok c' → c'.p[6] = c.p[6]) (h : hostLoad i load s = .next t) :
    fixedPart t = fixedPart s := by
  unfold hostLoad at h
  split at h
  · cases h
  · rename_i c hc
    split at h <;> cases h
    · rename_i c' hc'
      refine fixedPart_modifyCore s i (fun _ => c') fun d hd => ?_
      cases hc.symm.trans hd
      exact hload c c' hc'
    · rfl

theorem hostStep_fixedPart {a : HostAction} {s t : State} (h : hostStep a s = .next t) :
    fixedPart t = fixedPart s := by
  cases a with
  | bootup => exact bootup_fixedPart h
  | tick => exact coreTurn_fixedPart h
  | activate i => exact activate_fixedPart h
  | busRead b addr => cases h; exact fixedPart_busRead b addr s
  | busWrite b addr v => cases h; exact fixedPart_busWrite b addr v s
  | aluLoad1 i a => exact hostLoad_fixedPart (fun _ _ => loadOne_modulo) h
  | aluLoad2 i a b => exact hostLoad_fixedPart (fun _ _ => loadTwo_modulo) h

/-- No step, a Core's turn or a host action, changes the fixed part. -/
theorem step_fixedPart {s t : State} (h : step s = .next t) : fixedPart t = fixedPart s := by
  obtain ⟨_, hagent⟩ := step_next h
  rcases nextAgent_cases s with ⟨a, rest, _, _, e⟩ | ⟨_, e⟩
  · exact hostStep_fixedPart (s := { s with host := rest }) (e.symm.trans hagent)
  · exact coreTurn_fixedPart (e.symm.trans hagent)

/-! ### Dead turns and reset -/

theorem coreTurn_dead {s : State} (h : s.cpuAlive = false ∨ s.core.alive = false) :
    coreTurn s = .next (endTurn s) := by
  rcases coreStep_cases s with ⟨_, e⟩ | ⟨halive, _⟩
  · rw [coreTurn, e]; rfl
  · rcases h with h | h <;> simp [h] at halive

/-- Every Core of the reset state is a Core right after reset (10_state.md R53). -/
theorem mem_coreList_resetOf {cfg : Config} {c : CoreState} (h : c ∈ coreList (State.resetOf cfg)) :
    ∃ regs, c = coreReset cfg.ramCapacity regs := by
  rcases List.mem_cons.1 h with rfl | h
  · exact ⟨cfg.core0, rfl⟩
  · obtain ⟨regs, _, rfl⟩ := List.mem_map.1 h
    exact ⟨regs, rfl⟩

theorem inv_resetOf {cfg : Config} (h : cfg.valid = true) : Inv (State.resetOf cfg) :=
  { ramWf := reset_ram_wf cfg
    ramInRange := fun _ hcell => absurd hcell List.not_mem_nil
    config := h }

/-! ### The obligations -/

/-- Settles O6: distinct valid addresses name distinct registers, so the law is read-after-write of the
register space. -/
theorem registerWriteThenReadGivesValue : Obligations.RegisterWriteThenReadGivesValue := by
  intro s a b v r q ha hb
  refine ⟨?_, setReg_core_p s r v, setReg_ram s r v, setReg_restKept s r v⟩
  simp only [getReg_setReg, regOfWord_eq_iff ha hb]

/-- Settles O38, from the effects an instruction can have. -/
theorem onlyNamedRegistersChange : Obligations.OnlyNamedRegistersChange := by
  intro i s t hl h
  have effect := effect_of_exec h
  refine ⟨effect.core_p hl, fun q hpc hdest himplicit => effect.getReg hl q hpc ?_⟩
  rintro (hmem | ⟨d, hd, hr⟩)
  · exact himplicit hmem
  · exact hdest d hd hr

/-- Settles O41, from the effects an instruction can have. -/
theorem instructionKillsOnlyByHaltOrFault : Obligations.InstructionKillsOnlyByHaltOrFault := by
  intro i s t h
  rcases (effect_of_exec h).core_alive with hkept | ⟨hdead, hfault⟩
  · exact ⟨fun ht => hkept ▸ ht, fun _ hs ht => by simp [hkept, hs] at ht⟩
  · exact ⟨fun ht => by simp [hdead] at ht, fun hi _ _ => hfault hi⟩

/-- Settles O59: the parameters belong to the part of the state that no step changes. -/
theorem everyStepKeepsConfiguration : Obligations.EveryStepKeepsConfiguration :=
  fun _ _ h => sameConfiguration_of_fixedPart (step_fixedPart h)

/-- Settles O60: the `MODULO` slots belong to the part of the state that no step changes. -/
theorem moduloSlotIsNeverWritten : Obligations.ModuloSlotIsNeverWritten := by
  intro s t i c h hc
  have hslots : ((coreList t).map fun c => c.p[6])[i]? = ((coreList s).map fun c => c.p[6])[i]? :=
    congrArg (fun part => part.modulo[i]?) (step_fixedPart h)
  rw [List.getElem?_map, List.getElem?_map, hc] at hslots
  exact Option.map_eq_some_iff.1 hslots

/-- Settles O5: the map is the inverse of the registers' addresses, and no address above 0x1A is in it. -/
theorem registerAddressMap : Obligations.RegisterAddressMap := by
  refine ⟨regOfWord_regAddress .cflags, regOfWord_regAddress .flags, regOfWord_regAddress .pc,
    regOfWord_regAddress .sp, regOfWord_regAddress .bp, regOfWord_regAddress .si,
    regOfWord_regAddress .di, fun k => regOfWord_regAddress (.g k),
    fun k => regOfWord_regAddress (.s k), fun w hw => ?_⟩
  exact resolveReg_of_none w ((regOfWord_eq_none_iff w).2 hw)

/-- Settles O18, bit by bit: each operation is about the one bit of its flag, and no two flags share a
bit. -/
theorem flagOperationsAreIndependent : Obligations.FlagOperationsAreIndependent := by
  intro f h reg
  refine ⟨?_, ?_, rfl, fun n hn => ?_⟩
  · rw [getFlag, getLsbD_setFlag]
    by_cases e : h = f <;> simp [flagBit_inj, e, getFlag]
  · rw [getFlag, getLsbD_clearFlag]
    by_cases e : h = f <;> simp [flagBit_inj, e, getFlag]
  · have hf : n ≠ flagBit f := by have := flagBit_lt f; omega
    simp [getLsbD_setFlag, getLsbD_clearFlag, hf]

/-- Settles O46, for a turn that goes on by itself and for one the host asks for. -/
theorem deadCoreIgnoresTicks : Obligations.DeadCoreIgnoresTicks := by
  rintro s s' hc (⟨hturn, rfl⟩ | ⟨hb, later, hh, rfl⟩) hdead
  · rw [step_coreTurn hc hturn, coreTurn_dead hdead]
  · rw [step_hostTick hc hb hh, coreTurn_dead (s := { s with host := later }) hdead]

/-- Settles O50: every Core of the reset state is a Core right after reset. -/
theorem resetValues : Obligations.ResetValues := by
  intro cfg
  refine ⟨rfl, rfl, rfl, ?_, rfl, rfl, fun _ => rfl, fun c hc => ?_⟩
  · simp [nCores, coreList, State.resetOf]
  · obtain ⟨regs, rfl⟩ := mem_coreList_resetOf hc
    exact ⟨rfl, rfl, rfl, rfl, rfl⟩

/-- Settles O58: after reset RAM lists no word, and the configuration is the admitted one. -/
theorem resetHasInvariant : Obligations.ResetHasInvariant :=
  ⟨inv_resetOf (by decide), fun _ => inv_resetOf⟩

end Sys2Proof.Machine

/-! PROOFS of the family 20_memory.md. First that every step changes RAM by storing a block of words inside
the capacity (`step_storesBlock`), then what the devices of a Bus do in a read and in a write; then the
obligations. -/

namespace Sys2Proof.Machine

open Sys2Proof.Claims

/-! ### What an instruction does to RAM, the disk and the Buses -/

@[simp] theorem callInterrupt_ram (s : State) (vector : Word) : (callInterrupt s vector).ram = s.ram := by
  obtain ⟨_, _, _, e⟩ := callInterrupt_eq s vector
  rw [e]

@[simp] theorem callInterrupt_north (s : State) (vector : Word) :
    (callInterrupt s vector).north = s.north := by
  obtain ⟨_, _, _, e⟩ := callInterrupt_eq s vector
  rw [e]

@[simp] theorem callInterrupt_south (s : State) (vector : Word) :
    (callInterrupt s vector).south = s.south := by
  obtain ⟨_, _, _, e⟩ := callInterrupt_eq s vector
  rw [e]

/-- An effect keeps RAM, or it is a store's or a call's, which writes one word inside the capacity
(20_memory.md R65). -/
theorem Effect.ram {i : Instr} {s t : State} (h : Effect i s t) :
    t.ram = s.ram ∨
      mayStore i = true ∧ ∃ a v, a < s.ramCapacity ∧ t.ram = writeWord s.ram a v := by
  cases h with
  | store v pc hi ha => exact .inr ⟨hi, _, v, ha, rfl⟩
  | push v pc hi _ ha => exact .inr ⟨hi, _, v, ha, rfl⟩
  | _ => exact .inl (by simp)

/-- No effect drives a Bus (20_memory.md R74). -/
theorem Effect.buses {i : Instr} {s t : State} (h : Effect i s t) :
    t.north = s.north ∧ t.south = s.south := by
  cases h <;> simp

/-! ### What a step does to RAM -/

/-- RAM of `t` is that of `s` after a block of words, possibly empty, was stored inside the capacity. -/
def StoresBlock (s t : State) : Prop :=
  ∃ a vs, a + vs.length ≤ s.ramCapacity ∧ t.ram = writeWords s.ram a vs

theorem storesBlock_of_ram_eq {s t : State} (h : t.ram = s.ram) : StoresBlock s t :=
  ⟨0, [], Nat.zero_le _, h⟩

theorem Effect.storesBlock {i : Instr} {s t : State} (h : Effect i s t) : StoresBlock s t := by
  rcases h.ram with e | ⟨_, a, v, ha, e⟩
  · exact storesBlock_of_ram_eq e
  · exact ⟨a, [v], ha, e⟩

@[simp] theorem endTurn_ram (s : State) : (endTurn s).ram = s.ram := by
  obtain ⟨_, _, _, e⟩ := endTurn_eq s
  rw [e]

@[simp] theorem modifyCore_ram (s : State) (i : Nat) (f : CoreState → CoreState) :
    (modifyCore s i f).ram = s.ram := by
  obtain ⟨_, _, _, e⟩ := modifyCore_eq s i f
  rw [e]

theorem coreStep_storesBlock {s t : State} (h : coreStep s = .next t) : StoresBlock s t := by
  rcases coreStep_cases s with ⟨_, e⟩ | ⟨_, ⟨f, _, e⟩ | ⟨i, _, e⟩⟩
  · cases e.symm.trans h; exact storesBlock_of_ram_eq rfl
  · cases e.symm.trans h; exact storesBlock_of_ram_eq (takeFault_ram s f)
  · exact (effect_of_exec (e.symm.trans h)).storesBlock

theorem coreTurn_storesBlock {s t : State} (h : coreTurn s = .next t) : StoresBlock s t := by
  obtain ⟨u, hu, rfl⟩ := thenEndTurn_next h
  obtain ⟨a, vs, ha, e⟩ := coreStep_storesBlock hu
  exact ⟨a, vs, ha, (endTurn_ram u).trans e⟩

/-- In an admitted configuration RAM holds all the words that `bootup` copies
(70_reset_and_hazards.md R302). -/
theorem bootLength_le_of_configOk {s : State} (h : configOk s = true) :
    bootLength s.disk.length ≤ s.ramCapacity := by
  simp only [configOk, validCapacities, Bool.and_eq_true, decide_eq_true_eq] at h
  obtain ⟨_, hboot⟩ := h
  exact hboot

/-- The bootloader is copied as one block from address 0 (70_reset_and_hazards.md R303). -/
theorem bootup_storesBlock {s t : State} (hc : configOk s = true) (h : bootup s = .next t) :
    StoresBlock s t := by
  have himage : (s.disk.take (bootLength s.disk.length)).length ≤ s.ramCapacity :=
    (List.length_take_le _ _).trans (bootLength_le_of_configOk hc)
  unfold bootup at h
  split at h
  · cases h
  · cases h
    exact ⟨0, _, by rwa [Nat.zero_add], modifyCore_ram _ _ _⟩

theorem activate_ram {i : Nat} {s t : State} (h : activate i s = .next t) : t.ram = s.ram := by
  unfold activate at h
  split at h
  · cases h
    exact modifyCore_ram _ _ _
  · cases h

theorem hostLoad_ram (i : Nat) (load : CoreState → Except FaultSignal CoreState) {s t : State}
    (h : hostLoad i load s = .next t) : t.ram = s.ram := by
  unfold hostLoad at h
  split at h
  · cases h
  · split at h <;> cases h
    · exact modifyCore_ram _ _ _
    · rfl

theorem busRead_ram (b : BusId) (addr : Word) (s : State) : (busRead b addr s).ram = s.ram := by
  cases b <;> rfl

theorem busWrite_ram (b : BusId) (addr v : Word) (s : State) : (busWrite b addr v s).ram = s.ram := by
  cases b <;> rfl

/-- Of the host's actions only `bootup` and a tick reach RAM. -/
theorem hostStep_storesBlock {a : HostAction} {s t : State} (hc : configOk s = true)
    (h : hostStep a s = .next t) : StoresBlock s t := by
  cases a with
  | bootup => exact bootup_storesBlock hc h
  | tick => exact coreTurn_storesBlock h
  | activate i => exact storesBlock_of_ram_eq (activate_ram h)
  | busRead b addr => cases h; exact storesBlock_of_ram_eq (busRead_ram b addr s)
  | busWrite b addr v => cases h; exact storesBlock_of_ram_eq (busWrite_ram b addr v s)
  | aluLoad1 i a => exact storesBlock_of_ram_eq (hostLoad_ram i (fun c => loadOne c a) h)
  | aluLoad2 i a b => exact storesBlock_of_ram_eq (hostLoad_ram i (fun c => loadTwo c a b) h)

/-- All that a step, a Core's turn or a host action, can do to RAM. -/
theorem step_storesBlock {s t : State} (h : step s = .next t) : StoresBlock s t := by
  obtain ⟨hc, hagent⟩ := step_next h
  rcases nextAgent_cases s with ⟨a, rest, _, _, e⟩ | ⟨_, e⟩
  · exact hostStep_storesBlock (s := { s with host := rest }) hc (e.symm.trans hagent)
  · exact coreTurn_storesBlock (e.symm.trans hagent)

/-- Storing a block inside the capacity, with the parameters as they are, keeps the invariant. -/
theorem Inv.of_storesBlock {s t : State} (hs : Inv s) (hblock : StoresBlock s t)
    (hcap : t.ramCapacity = s.ramCapacity) (hdisk : t.disk = s.disk) : Inv t := by
  obtain ⟨a, vs, ha, e⟩ := hblock
  refine ⟨?_, ?_, ?_⟩
  · exact e ▸ writeWords_wf vs s.ram a hs.ramWf
  · unfold Machine.ramInRange
    rw [hcap, e]
    exact writeWords_inRange vs s.ram a s.ramCapacity ha hs.ramInRange
  · rw [configOk, hcap, hdisk]
    exact hs.config

/-! ### The devices of a Bus -/

/-- The statements' range is the one the model tests (20_memory.md R67). -/
theorem claims_iff_inRange (d : Device) (addr : Word) : claims d addr = true ↔ inRange d addr :=
  claims_iff d addr

theorem claims_eq_false_iff (d : Device) (addr : Word) : claims d addr = false ↔ ¬inRange d addr := by
  rw [← claims_iff_inRange, Bool.not_eq_true]

/-- An address of the device's range fits exactly if the device has a word there (20_memory.md R75). -/
theorem localIndex_lt_iff_fits {d : Device} {addr : Word} (h : claims d addr = true) :
    localIndex d addr < d.mem.length ↔ fits d addr := by
  rw [localIndex_of_claims h, fits]

/-- No device of the list fails an access to the address (20_memory.md R75). -/
def NoneFails (ds : List Device) (addr : Word) : Prop :=
  ∀ e ∈ ds, inRange e addr → fits e addr

theorem NoneFails.localIndex_lt {ds : List Device} {addr : Word} (h : NoneFails ds addr) :
    ∀ e ∈ ds, claims e addr = true → localIndex e addr < e.mem.length :=
  fun e he hc => (localIndex_lt_iff_fits hc).2 (h e he ((claims_iff_inRange e addr).1 hc))

/-! ### Bus reads -/

theorem broadcastRead_notInRange {ds : List Device} {addr : Word} (v : Word)
    (h : ∀ e ∈ ds, ¬inRange e addr) : broadcastRead ds addr v = (v, false) :=
  broadcastRead_unclaimed v fun e he => (claims_eq_false_iff e addr).2 (h e he)

/-- A read returns the word of the last device that matches, whatever `bus_value` was
(20_memory.md R71, R73). -/
theorem broadcastRead_lastMatch {ds es : List Device} {d : Device} {addr w : Word} (v : Word)
    (hds : NoneFails ds addr) (hd : inRange d addr)
    (hw : d.mem[addr.toNat - d.floor.toNat]? = some w) (hes : ∀ e ∈ es, ¬inRange e addr) :
    broadcastRead (ds ++ d :: es) addr v = (w, false) := by
  have hc : claims d addr = true := (claims_iff_inRange d addr).2 hd
  obtain ⟨u, hu⟩ := broadcastRead_ok v hds.localIndex_lt
  calc broadcastRead (ds ++ d :: es) addr v
      = broadcastRead (d :: es) addr u := broadcastRead_append _ hu
    _ = broadcastRead es addr w := by
      rw [broadcastRead, hc, localIndex_of_claims hc, hw]
      rfl
    _ = (w, false) := broadcastRead_notInRange w hes

/-- A device that is too short ends a read, with the word the earlier devices left (20_memory.md R75). -/
theorem broadcastRead_pastEnd {ds : List Device} (es : List Device) {d : Device} {addr u v : Word}
    (hds : broadcastRead ds addr v = (u, false)) (hd : inRange d addr) (hfit : ¬fits d addr) :
    broadcastRead (ds ++ d :: es) addr v = (u, true) := by
  have hc : claims d addr = true := (claims_iff_inRange d addr).2 hd
  have hnone : d.mem[localIndex d addr]? = none := by
    rw [List.getElem?_eq_none_iff, ← Nat.not_lt, localIndex_lt_iff_fits hc]
    exact hfit
  rw [broadcastRead_append _ hds, broadcastRead, hc, hnone]
  rfl

/-- A Bus read is its broadcast: only `bus_value` and the report are new (20_memory.md R71). -/
theorem hostStep_busRead {s : State} {b : BusId} {addr u : Word} {failed : Bool}
    (h : broadcastRead (getBus s b).devices addr (getBus s b).busValue = (u, failed)) :
    hostStep (.busRead b addr) s =
      .next (withBus s b { devices := (getBus s b).devices, busValue := u }
        (if failed then .deviceOutOfRange addr else .value u)) := by
  rw [hostStep, busRead, busReadOn, h]
  cases b <;> rfl

/-! ### Bus writes -/

/-- The device after a write that does not fail in it: it stores the word if the address is in its range
(20_memory.md R69). -/
def afterWrite (addr v : Word) (d : Device) : Device :=
  if claims d addr then stored d addr v else d

theorem afterWrite_of_inRange {d : Device} {addr : Word} (v : Word) (h : inRange d addr) :
    afterWrite addr v d = stored d addr v :=
  if_pos ((claims_iff_inRange d addr).2 h)

theorem afterWrite_of_not_inRange {d : Device} {addr : Word} (v : Word) (h : ¬inRange d addr) :
    afterWrite addr v d = d :=
  if_neg (mt (claims_iff_inRange d addr).1 h)

/-- A write reaches every device of a list in which none fails (20_memory.md R72). -/
theorem broadcastWrite_noneFails {ds : List Device} {addr : Word} (v : Word) (h : NoneFails ds addr) :
    broadcastWrite ds addr v = (ds.map (afterWrite addr v), false) := by
  induction ds with
  | nil => rfl
  | cons d ds ih =>
    have ih := ih fun e he => h e (List.mem_cons_of_mem _ he)
    rcases broadcastWrite_cons d ds addr v with ⟨hc, e⟩ | ⟨hc, _, e⟩ | ⟨hc, hl, _⟩
    · rw [e, ih, List.map_cons, afterWrite_of_not_inRange v ((claims_eq_false_iff d addr).1 hc)]
    · rw [e, ih, List.map_cons, afterWrite_of_inRange v ((claims_iff_inRange d addr).1 hc),
        localIndex_of_claims hc]
      rfl
    · exact absurd (h.localIndex_lt d List.mem_cons_self hc) (Nat.not_lt.2 hl)

/-- What each place of a device list holds after the write. -/
theorem getElem?_map_afterWrite {ds : List Device} (addr v : Word) {k : Nat} {d : Device}
    (hd : ds[k]? = some d) :
    (inRange d addr → (ds.map (afterWrite addr v))[k]? = some (stored d addr v)) ∧
      (¬inRange d addr → (ds.map (afterWrite addr v))[k]? = some d) := by
  rw [List.getElem?_map, hd, Option.map_some]
  exact ⟨fun h => congrArg some (afterWrite_of_inRange v h),
    fun h => congrArg some (afterWrite_of_not_inRange v h)⟩

/-- A device that is too short ends a write; it and the later ones are as before (20_memory.md R75). -/
theorem broadcastWrite_pastEnd {ds : List Device} (es : List Device) {d : Device} {addr : Word} (v : Word)
    (hds : NoneFails ds addr) (hd : inRange d addr) (hfit : ¬fits d addr) :
    broadcastWrite (ds ++ d :: es) addr v = (ds.map (afterWrite addr v) ++ d :: es, true) := by
  have hc : claims d addr = true := (claims_iff_inRange d addr).2 hd
  rw [broadcastWrite_append _ (broadcastWrite_noneFails v hds), broadcastWrite, hc, if_pos rfl,
    if_neg (mt (localIndex_lt_iff_fits hc).1 hfit)]

/-- A Bus write is its broadcast: only the devices and the report are new (20_memory.md R72). -/
theorem hostStep_busWrite {s : State} {b : BusId} {addr v : Word} {ds : List Device} {failed : Bool}
    (h : broadcastWrite (getBus s b).devices addr v = (ds, failed)) :
    hostStep (.busWrite b addr v) s =
      .next (withBus s b { devices := ds, busValue := (getBus s b).busValue }
        (if failed then .deviceOutOfRange addr else .done)) := by
  rw [hostStep, busWrite, busWriteOn, h]
  cases b <;> rfl

/-! ### The obligations -/

/-- Settles O57: a step stores a block of words inside the capacity and changes no parameter. -/
theorem everyStepKeepsInvariant : Obligations.EveryStepKeepsInvariant := by
  intro s t hs h
  obtain ⟨hcap, hdisk, _⟩ := sameConfiguration_of_fixedPart (step_fixedPart h)
  exact hs.of_storesBlock (step_storesBlock h) hcap hdisk

/-- Settles O7, from the laws of `MemRead` and `MemWrite` on either side of the capacity. -/
theorem memoryAccessIsRangeChecked : Obligations.MemoryAccessIsRangeChecked := by
  intro s a v
  refine ⟨fun h => ⟨memRead_outOfRange s a h, memWrite_outOfRange s a v h⟩,
    fun h => ⟨memRead_inRange s a h, fun hwf => ?_⟩⟩
  exact ⟨_, memWrite_inRange s a v h, fun b => readWord_writeWord s.ram a.toNat b v hwf,
    writeWord_wf s.ram a.toNat v hwf, rfl⟩

/-- Settles O39, from the effects an instruction can have. -/
theorem onlyStoresAndCallsChangeRam : Obligations.OnlyStoresAndCallsChangeRam := by
  intro i s t h
  have effect := effect_of_exec h
  refine ⟨fun hi => ?_, congrArg FixedPart.disk effect.fixedPart, effect.buses⟩
  rcases effect.ram with e | ⟨hstore, _⟩
  · exact e
  · exact absurd (hi.symm.trans hstore) Bool.false_ne_true

/-- Settles O53: the broadcast ends with the word of the last match. -/
theorem busReadLastMatchWins : Obligations.BusReadLastMatchWins := by
  intro s b addr w ds es d hdev hds hd hw hes
  have hread := broadcastRead_lastMatch (getBus s b).busValue hds hd hw hes
  rw [← hdev] at hread
  exact hostStep_busRead hread

/-- Settles O54: neither broadcast meets a device that acts. -/
theorem unclaimedBusAccess : Obligations.UnclaimedBusAccess := by
  intro s b addr v h
  have hunclaimed : ∀ d ∈ (getBus s b).devices, claims d addr = false :=
    fun d hd => (claims_eq_false_iff d addr).2 (h d hd)
  exact ⟨hostStep_busRead (broadcastRead_unclaimed _ hunclaimed),
    hostStep_busWrite (broadcastWrite_unclaimed v hunclaimed)⟩

/-- Settles O55: the devices after the write are the old ones, each with the word if it matches. -/
theorem busWriteReachesAllMatches : Obligations.BusWriteReachesAllMatches := by
  rintro s b addr v ds rfl hds
  exact ⟨_, List.length_map _, fun _ _ => getElem?_map_afterWrite addr v,
    hostStep_busWrite (broadcastWrite_noneFails v hds)⟩

/-- Settles O56: both broadcasts pass the earlier devices and end in the one that is too short. -/
theorem busAccessPastDeviceEnd : Obligations.BusAccessPastDeviceEnd := by
  intro s b addr v ds es d hdev hds hd hfit
  constructor
  · obtain ⟨u, hu⟩ := broadcastRead_ok (getBus s b).busValue (NoneFails.localIndex_lt hds)
    have hread := broadcastRead_pastEnd es hu hd hfit
    rw [← hdev] at hread
    refine ⟨u, fun cs fs e w hsplit he hw hfs => ?_, fun hnone => ?_, hostStep_busRead hread⟩
    · have hcs : NoneFails cs addr := fun c hc => hds c (hsplit ▸ List.mem_append_left _ hc)
      have hlast := broadcastRead_lastMatch (getBus s b).busValue hcs he hw hfs
      rw [← hsplit, hu] at hlast
      exact congrArg Prod.fst hlast
    · exact congrArg Prod.fst (hu.symm.trans (broadcastRead_notInRange _ hnone))
  · have hwrite := broadcastWrite_pastEnd es v hds hd hfit
    rw [← hdev] at hwrite
    exact ⟨_, List.length_map _, fun _ _ => getElem?_map_afterWrite addr v, hostStep_busWrite hwrite⟩

end Sys2Proof.Machine

/-! PROOFS of the family 30_encoding.md. First that the opcode map and the encoder are one table, and what
decoding and fetching do for each shape of opcode; then the obligations. -/

namespace Sys2Proof

open Sys2Proof.Claims

/-! ### The opcode table -/

theorem isUnknownOpword_iff (w : Word) :
    isUnknownOpword w = true ↔ w ∈ unknownHoles ∨ 0x46 ≤ w.toNat := by
  simp [isUnknownOpword]

/-- The unknown opcode words are the complement of the table (30_encoding.md R100): inside the table's
range word by word, and above it because every word of the table is below 0x46. -/
theorem not_mem_tableOpcodes_iff (w : Word) : w ∉ tableOpcodes ↔ isUnknownOpword w = true := by
  rcases Nat.lt_or_ge w.toNat 0x46 with hlt | hge
  · have inRange : ∀ n < 0x46, BitVec.ofNat 32 n ∉ tableOpcodes ↔
        isUnknownOpword (BitVec.ofNat 32 n) = true := by decide
    simpa using inRange w.toNat hlt
  · have below : ∀ op ∈ tableOpcodes, op.toNat < 0x46 := by
      intro op hmem
      fin_cases hmem <;> decide
    exact iff_of_true (fun hmem => Nat.not_lt.2 hge (below w hmem)) ((isUnknownOpword_iff w).2 (.inr hge))

/-- The instruction of the shape with its operand words, of two words those the opcode calls for. -/
def Shape.instr : Shape → Word → Word → Instr
  | .words1 i, _, _ => i
  | .words2 build, a, _ => build a
  | .words3 build, a, b => build a b

/-- The opcode map and the encoder agree: each row of the table, and each unknown opcode word, builds a
well-formed instruction whose encoding is that word and its operands (30_encoding.md R97, R99). -/
theorem shapeOf_instr_encoding (op a b : Word) :
    ((shapeOf op).instr a b).wf = true ∧
      encode ((shapeOf op).instr a b) = op :: [a, b].take (shapeOf op).operandCount := by
  by_cases hmem : op ∈ tableOpcodes
  · fin_cases hmem <;> exact ⟨rfl, rfl⟩
  · have hunknown := (not_mem_tableOpcodes_iff op).1 hmem
    rw [shapeOf_unknown op hunknown]
    exact ⟨hunknown, rfl⟩

theorem encode_instr_length (op a b : Word) :
    (encode ((shapeOf op).instr a b)).length = (shapeOf op).operandCount + 1 := by
  obtain ⟨_, henc⟩ := shapeOf_instr_encoding op a b
  rw [henc]
  cases shapeOf op <;> rfl

/-! ### Decoding -/

theorem decode_words1 {op : Word} {i : Instr} (hs : shapeOf op = .words1 i) (ws : List Word) :
    decode (op :: ws) = .ok (i, ws) := by
  simp [decode, hs]

/-- The words of an instruction decode to it (30_encoding.md R90, R97): the opcode of a table row selects
that row, and an unknown opcode word stands for itself. -/
theorem decode_encode (i : Instr) (rest : List Word) (hi : i.wf = true) :
    decode (encode i ++ rest) = .ok (i, rest) := by
  cases i with
  | unknown w => exact decode_words1 (shapeOf_unknown w hi) rest
  | _ => rfl

/-- All that decoding can accept: an opcode word, as many operand words as it calls for, and the rest
(30_encoding.md R90, R92). -/
theorem decode_ok_words {ws rest : List Word} {i : Instr} (h : decode ws = .ok (i, rest)) :
    ∃ op a b, i = (shapeOf op).instr a b ∧
      ws = op :: [a, b].take (shapeOf op).operandCount ++ rest := by
  cases ws with
  | nil => cases h
  | cons op ws =>
    refine ⟨op, ?_⟩
    simp only [decode] at h
    cases hs : shapeOf op <;> rw [hs] at h
    case words1 => cases h; exact ⟨0, 0, rfl, rfl⟩
    case words2 => match ws, h with | a :: _, rfl => exact ⟨a, 0, rfl, rfl⟩
    case words3 => match ws, h with | a :: b :: _, rfl => exact ⟨a, b, rfl, rfl⟩

/-- Decoding accepts the encodings of the well-formed instructions and nothing else. -/
theorem wf_encode_of_decode {ws rest : List Word} {i : Instr} (h : decode ws = .ok (i, rest)) :
    i.wf = true ∧ ws = encode i ++ rest := by
  obtain ⟨op, a, b, rfl, rfl⟩ := decode_ok_words h
  obtain ⟨hwf, henc⟩ := shapeOf_instr_encoding op a b
  exact ⟨hwf, by rw [henc]⟩

/-- Three words, the longest instruction, always decode. -/
theorem decode_threeWords (op a b : Word) :
    decode [op, a, b] = .ok ((shapeOf op).instr a b, [a, b].drop (shapeOf op).operandCount) := by
  simp only [decode]
  cases shapeOf op <;> rfl

end Sys2Proof

namespace Sys2Proof.Machine

open Sys2Proof.Claims

/-! ### Fetching -/

theorem ramCapacity_le_of_configOk {s : State} (h : configOk s = true) : s.ramCapacity ≤ 0xFFFFFFFF := by
  simp only [configOk, validCapacities, Bool.and_eq_true, decide_eq_true_eq] at h
  obtain ⟨⟨⟨_, hcap⟩, _⟩, _⟩ := h
  exact hcap

/-- The address of the `k`-th word of the instruction does not wrap as long as it is at most the capacity
of RAM (30_encoding.md R101). -/
theorem toNat_pc_add {s : State} (hc : configOk s = true) {k : Word}
    (h : s.core.pc.toNat + k.toNat ≤ s.ramCapacity) :
    (s.core.pc + k).toNat = s.core.pc.toNat + k.toNat := by
  have hcap := ramCapacity_le_of_configOk hc
  exact BitVec.toNat_add_of_lt (by omega)

theorem memRead_pc_add {s : State} (hc : configOk s = true) {k : Word}
    (h : s.core.pc.toNat + k.toNat < s.ramCapacity) :
    memRead s (s.core.pc + k) = .ok (readWord s.ram (s.core.pc.toNat + k.toNat)) := by
  have hk := toNat_pc_add hc h.le
  rw [memRead_inRange s _ (hk ▸ h), hk]

theorem memRead_pc_add_end {s : State} (hc : configOk s = true) {k : Word}
    (h : s.core.pc.toNat + k.toNat = s.ramCapacity) :
    memRead s (s.core.pc + k) = .error { cause := .addressOutOfRangeMemory, info := s.core.pc + k } :=
  memRead_outOfRange s _ (by rw [toNat_pc_add hc h.le, h])

/-- The opcode word the executing Core fetches is out of range. -/
theorem fetch_outOfRange {s : State} (h : s.ramCapacity ≤ s.core.pc.toNat) :
    fetch s = .error { cause := .addressOutOfRangeMemory, info := s.core.pc } := by
  rw [fetch, memRead_outOfRange s _ h]

section
variable {s : State} (hpc : s.core.pc.toNat < s.ramCapacity)
include hpc

/-! What the fetch does after an opcode word in range, for each shape (30_encoding.md R101). -/

theorem fetch_words1 {i : Instr} (hs : shapeOf (readWord s.ram s.core.pc.toNat) = .words1 i) :
    fetch s = .ok i := by
  simp only [fetch, memRead_inRange s _ hpc, hs]

theorem fetch_words2 {build : Word → Instr}
    (hs : shapeOf (readWord s.ram s.core.pc.toNat) = .words2 build) :
    fetch s = (memRead s (s.core.pc + 1)).map build := by
  simp only [fetch, memRead_inRange s _ hpc, hs]
  cases memRead s (s.core.pc + 1) <;> rfl

theorem fetch_words3 {build : Word → Word → Instr}
    (hs : shapeOf (readWord s.ram s.core.pc.toNat) = .words3 build) :
    fetch s = (memRead s (s.core.pc + 1)).bind fun a => (memRead s (s.core.pc + 2)).map (build a) := by
  simp only [fetch, memRead_inRange s _ hpc, hs]
  cases memRead s (s.core.pc + 1) <;> cases memRead s (s.core.pc + 2) <;> rfl

end

/-- The opcode is the last word of RAM and calls for an operand (30_encoding.md R102). -/
theorem fetch_operand1_outOfRange {s : State} (hc : configOk s = true)
    (h : s.core.pc.toNat + 1 = s.ramCapacity)
    (hcount : 1 ≤ (shapeOf (readWord s.ram s.core.pc.toNat)).operandCount) :
    fetch s = .error { cause := .addressOutOfRangeMemory, info := s.core.pc + 1 } := by
  have hpc : s.core.pc.toNat < s.ramCapacity := by omega
  have hread := memRead_pc_add_end hc (k := 1) h
  cases hs : shapeOf (readWord s.ram s.core.pc.toNat) with
  | words1 i => simp [hs, Shape.operandCount] at hcount
  | words2 build => rw [fetch_words2 hpc hs, hread]; rfl
  | words3 build => rw [fetch_words3 hpc hs, hread]; rfl

/-- Operand 1 is the last word of RAM and the opcode calls for two (30_encoding.md R102). -/
theorem fetch_operand2_outOfRange {s : State} (hc : configOk s = true)
    (h : s.core.pc.toNat + 2 = s.ramCapacity)
    (hcount : (shapeOf (readWord s.ram s.core.pc.toNat)).operandCount = 2) :
    fetch s = .error { cause := .addressOutOfRangeMemory, info := s.core.pc + 2 } := by
  have hpc : s.core.pc.toNat < s.ramCapacity := by omega
  have h1 : s.core.pc.toNat + 1 < s.ramCapacity := by omega
  cases hs : shapeOf (readWord s.ram s.core.pc.toNat) with
  | words1 i => simp [hs, Shape.operandCount] at hcount
  | words2 build => simp [hs, Shape.operandCount] at hcount
  | words3 build =>
    rw [fetch_words3 hpc hs, memRead_pc_add hc (k := 1) h1, memRead_pc_add_end hc (k := 2) h]
    rfl

/-- An instruction that lies in RAM is fetched whole (30_encoding.md R101). -/
theorem fetch_inRange {s : State} (hc : configOk s = true)
    (h : s.core.pc.toNat + (shapeOf (readWord s.ram s.core.pc.toNat)).operandCount < s.ramCapacity) :
    fetch s = .ok ((shapeOf (readWord s.ram s.core.pc.toNat)).instr
      (readWord s.ram (s.core.pc.toNat + 1)) (readWord s.ram (s.core.pc.toNat + 2))) := by
  have hpc : s.core.pc.toNat < s.ramCapacity := by omega
  cases hs : shapeOf (readWord s.ram s.core.pc.toNat) <;> rw [hs] at h
  case words1 i => exact fetch_words1 hpc hs
  case words2 build =>
    rw [fetch_words2 hpc hs, memRead_pc_add hc (k := 1) h]
    rfl
  case words3 build =>
    rw [fetch_words3 hpc hs, memRead_pc_add hc (k := 1) (Nat.lt_of_succ_lt h),
      memRead_pc_add hc (k := 2) h]
    rfl

/-- The fetch is the decoder on the words at `PC`, when the instruction lies in RAM. -/
theorem fetch_of_decode {s : State} {i : Instr} {rest : List Word} (hc : configOk s = true)
    (hd : decode [readWord s.ram s.core.pc.toNat, readWord s.ram (s.core.pc.toNat + 1),
      readWord s.ram (s.core.pc.toNat + 2)] = .ok (i, rest))
    (hlen : s.core.pc.toNat + (encode i).length ≤ s.ramCapacity) : fetch s = .ok i := by
  rw [decode_threeWords] at hd
  cases hd
  rw [encode_instr_length] at hlen
  exact fetch_inRange hc hlen

/-! ### The turn of a live Core -/

theorem coreTurn_alive {s : State} (hcpu : s.cpuAlive = true) (hcore : s.core.alive = true) :
    coreTurn s = thenEndTurn (orFault s (fetch s) fun i => exec i s) := by
  simp [coreTurn, coreStep, hcpu, hcore]

/-- The step that starts a turn is that turn, in the state with a host's request taken off the queue
(00_scope.md R9). -/
theorem step_turnStarts {s s' : State} (hc : configOk s = true) (h : turnStarts s s') :
    step s = coreTurn s' ∧ ∃ host, s' = { s with host := host } := by
  rcases h with ⟨hturn, rfl⟩ | ⟨hb, later, hh, rfl⟩
  · exact ⟨step_coreTurn hc hturn, s'.host, rfl⟩
  · exact ⟨step_hostTick hc hb hh, later, rfl⟩

theorem takeFault_eq_faultTaken (s : State) (cause : FaultCause) (info : Word) :
    takeFault s { cause := cause, info := info } = faultTaken s cause info := by
  rw [takeFault, faultTaken]
  cases s.core.fault <;> rfl

/-- A fetch that faults is the whole turn of a live Core (60_exceptions.md R262, R265). -/
theorem coreTurn_fetchFault {s : State} {cause : FaultCause} {info : Word} (hcpu : s.cpuAlive = true)
    (hcore : s.core.alive = true) (hf : fetch s = .error { cause := cause, info := info }) :
    coreTurn s = .next (endTurn (faultTaken s cause info)) := by
  rw [coreTurn_alive hcpu hcore, hf, orFault_error, takeFault_eq_faultTaken]
  rfl

theorem coreTurn_decoded {s : State} {i : Instr} {rest : List Word} (hc : configOk s = true)
    (hcpu : s.cpuAlive = true) (hcore : s.core.alive = true)
    (hd : decode [readWord s.ram s.core.pc.toNat, readWord s.ram (s.core.pc.toNat + 1),
      readWord s.ram (s.core.pc.toNat + 2)] = .ok (i, rest))
    (hlen : s.core.pc.toNat + (encode i).length ≤ s.ramCapacity) :
    coreTurn s = thenEndTurn (exec i s) := by
  rw [coreTurn_alive hcpu hcore, fetch_of_decode hc hd hlen, orFault_ok]

/-! ### The obligations -/

/-- Settles O1, by the case of the table's rows and the case of the unknown opcode words. -/
theorem decodeOfEncodeGivesInstruction : Obligations.DecodeOfEncodeGivesInstruction :=
  decode_encode

/-- Settles O2, from the agreement of the opcode map and the encoder. -/
theorem decodedWordsAreTheEncoding : Obligations.DecodedWordsAreTheEncoding :=
  fun _ _ _ => wf_encode_of_decode

/-- Settles O3: such a word is a well-formed unknown instruction, whose encoding is the word. -/
theorem unknownOpcodeIsOneWordNoOp : Obligations.UnknownOpcodeIsOneWordNoOp := by
  intro w
  rw [not_mem_tableOpcodes_iff]
  exact ⟨isUnknownOpword_iff w, fun hw => ⟨fun rest => decode_encode (.unknown w) rest hw, fun _ => rfl⟩⟩

/-- Settles O44: the fetch faults in the state the turn runs in, which differs from `s` in the queue only. -/
theorem fetchOutOfRangeFaults : Obligations.FetchOutOfRangeFaults := by
  intro s s' hc hturn hcpu hcore
  obtain ⟨hstep, host, rfl⟩ := step_turnStarts hc hturn
  rw [hstep]
  refine ⟨fun hpc => ?_, fun hend hcount => ?_, fun hend hcount => ?_⟩ <;>
    refine coreTurn_fetchFault (s := { s with host := host }) hcpu hcore ?_
  · exact fetch_outOfRange hpc
  · exact fetch_operand1_outOfRange hc hend hcount
  · exact fetch_operand2_outOfRange hc hend hcount

/-- Settles O4: the words are the encodings of these instructions, each followed by the words left over. -/
theorem sampleWordsDecode : Obligations.SampleWordsDecode :=
  ⟨decode_encode (.movRl 0x07 0x03) [0x01] rfl, decode_encode (.intL 0x10) [] rfl,
    decode_encode (.movRr 0x0A 0x08) [] rfl, decode_encode (.addRl 0x07 0x05) [] rfl,
    decode_encode (.svmLr 0x40 0x07) [] rfl, decode_encode (.unknown 0x103) [0x07, 0x03] rfl⟩

/-- Settles O45: the turn fetches what the decoder reads, from RAM that the host's request does not touch. -/
theorem stepRunsDecodedInstruction : Obligations.StepRunsDecodedInstruction := by
  intro s i rest hc hcpu hcore hd hlen
  refine ⟨fun hturn => ?_, fun later hb hh => ?_⟩
  · rw [step_coreTurn hc hturn, coreTurn_decoded hc hcpu hcore hd hlen]
  · rw [step_hostTick hc hb hh]
    exact coreTurn_decoded (s := { s with host := later }) hc hcpu hcore hd hlen

end Sys2Proof.Machine

/-! PROOFS of the family 40_alu_unit.md. First the primitives, the compares and the two loads in the
arithmetic of the rules, then the two ways a load reaches the state: through an instruction
(`wroteThroughLoad_withCache`) and through a test bench (`hostLoad_ok`); then the obligations. -/

namespace Sys2Proof.Machine

open Sys2Proof.Claims

/-! ### The primitives -/

theorem toNat_aluAdd (a b : Word) : (aluAdd a b).toNat = (a.toNat + b.toNat) % 2 ^ 32 :=
  BitVec.toNat_add a b

/-- Wrapping below zero adds the modulus once (40_alu_unit.md R122). -/
theorem toNat_aluSub (a b : Word) :
    (aluSub a b).toNat =
      if b.toNat ≤ a.toNat then a.toNat - b.toNat else a.toNat + 2 ^ 32 - b.toNat := by
  have ha := a.isLt
  have hb := b.isLt
  rw [aluSub, BitVec.toNat_sub]
  split <;> omega

theorem toNat_aluMul (a b : Word) : (aluMul a b).toNat = a.toNat * b.toNat % 2 ^ 32 :=
  BitVec.toNat_mul a b

theorem toNat_aluNot (a : Word) : (aluNot a).toNat = 0xFFFFFFFF - a.toNat :=
  BitVec.toNat_not

theorem getLsbD_aluNor (a b : Word) {k : Nat} (hk : k < 32) :
    (aluNor a b).getLsbD k = !(a.getLsbD k || b.getLsbD k) := by
  simp [aluNor, hk]

theorem eq_ofNat_of_toNat_eq {x : Word} {n : Nat} (h : x.toNat = n) : x = BitVec.ofNat 32 n := by
  rw [← h, BitVec.ofNat_toNat, BitVec.setWidth_eq]

/-- The value of an operation is the one the rules' arithmetic gives (40_alu_unit.md R121 to R130). -/
theorem aluValue_eq_arithResult (op : AluOp) (a b : Word) : aluValue op a b = arithResult op a b := by
  cases op with
  | add => exact eq_ofNat_of_toNat_eq (toNat_aluAdd a b)
  | sub => exact eq_ofNat_of_toNat_eq (toNat_aluSub a b)
  | mul => exact eq_ofNat_of_toNat_eq (toNat_aluMul a b)
  | div => exact eq_ofNat_of_toNat_eq BitVec.toNat_udiv
  | _ => rfl

/-! ### The compares -/

theorem eq_zero_iff_toNat_eq_zero (x : Word) : x = 0 ↔ x.toNat = 0 :=
  BitVec.toNat_inj.symm

theorem compareOne_eq_flagsOfOne (reg a : Word) : compareOne reg a = flagsOfOne a := by
  simp only [compareOne_eq, flagsOfOne, BitVec.msb_eq_getLsbD_last, eq_zero_iff_toNat_eq_zero]

theorem compareTwo_eq_flagsOfPair (reg a b : Word) : compareTwo reg a b = flagsOfPair a b := by
  simp only [compareTwo_eq, flagsOfPair, BitVec.msb_eq_getLsbD_last, eq_zero_iff_toNat_eq_zero,
    BitVec.toNat_inj, BitVec.lt_def]

/-- The one relation that a two-operand compare sets (40_alu_unit.md R135). -/
def relationFlag (a b : Word) : Flag :=
  if a = b then .equal else if b < a then .greaterThan else .lessThan

theorem relationFlag_cases (a b : Word) :
    (a.toNat = b.toNat ∧ relationFlag a b = .equal) ∨
      (b.toNat < a.toNat ∧ relationFlag a b = .greaterThan) ∨
      (a.toNat < b.toNat ∧ relationFlag a b = .lessThan) := by
  rcases lt_trichotomy a.toNat b.toNat with hlt | heq | hgt
  · refine .inr (.inr ⟨hlt, ?_⟩)
    simp [relationFlag, BitVec.toNat_eq, BitVec.lt_def, hlt.ne, hlt.le]
  · exact .inl ⟨heq, by simp [relationFlag, BitVec.toNat_eq, heq]⟩
  · refine .inr (.inl ⟨hgt, ?_⟩)
    simp [relationFlag, BitVec.toNat_eq, BitVec.lt_def, hgt.ne', hgt]

/-- A two-operand compare sets four flags at most, one after the other, in a cleared register. -/
theorem compareTwo_eq_setFlag (reg a b : Word) :
    compareTwo reg a b = setFlag (relationFlag a b)
      (setFlagIf (a == 0 || b == 0) .zero
        (setFlagIf (a.msb || b.msb) .negative (setFlag .twoCompared (clearAllFlags reg)))) := by
  unfold compareTwo relationFlag
  split
  · rfl
  · split <;> rfl

theorem getFlag_setFlag (f h : Flag) (reg : Word) :
    getFlag h (setFlag f reg) = (getFlag h reg || decide (h = f)) := by
  simp only [getFlag, getLsbD_setFlag, flagBit_inj]

theorem getFlag_setFlagIf (cond : Bool) (f h : Flag) (reg : Word) :
    getFlag h (setFlagIf cond f reg) = (getFlag h reg || (cond && decide (h = f))) := by
  cases cond with
  | false => simp [setFlagIf]
  | true => simp [setFlagIf, getFlag_setFlag]

theorem getFlag_clearAllFlags (h : Flag) (reg : Word) : getFlag h (clearAllFlags reg) = false := by
  simp [getFlag, clearAllFlags]

/-- Which flags are set after a two-operand compare (40_alu_unit.md R135). -/
theorem getFlag_compareTwo (h : Flag) (reg a b : Word) :
    getFlag h (compareTwo reg a b) =
      (decide (h = .twoCompared) || ((a.msb || b.msb) && decide (h = .negative)) ||
        ((a == 0 || b == 0) && decide (h = .zero)) || decide (h = relationFlag a b)) := by
  simp only [compareTwo_eq_setFlag, getFlag_setFlag, getFlag_setFlagIf, getFlag_clearAllFlags,
    Bool.false_or]

/-! ### The loads -/

/-- The slots filled by a load hold what the rules' arithmetic gives (40_alu_unit.md R137). -/
theorem cachedResults_eq_slotsOfPair (p : Vector Word 13) (a b : Word) :
    cachedResults p a b (a / b) (a % b) = slotsOfPair p a b := by
  have hadd : aluAdd a b = arithResult .add a b := aluValue_eq_arithResult .add a b
  have hsub : aluSub a b = arithResult .sub a b := aluValue_eq_arithResult .sub a b
  have hmul : aluMul a b = arithResult .mul a b := aluValue_eq_arithResult .mul a b
  have hdiv : a / b = arithResult .div a b := aluValue_eq_arithResult .div a b
  have hmod : a % b = BitVec.ofNat 32 (a.toNat % b.toNat) := eq_ofNat_of_toNat_eq BitVec.toNat_umod
  rw [cachedResults, hadd, hsub, hmul, hdiv, hmod, aluXor_eq]
  rfl

/-- The load of a pair whose second part is zero (40_alu_unit.md R138). -/
theorem loadTwo_zero (c : CoreState) (a : Word) :
    loadTwo c a 0 = .error { cause := .divideByZero, info := a } := by
  rcases loadTwo_cases c a 0 with ⟨_, e⟩ | ⟨hb, _⟩
  · exact e
  · exact absurd rfl hb

/-- The load of any other pair (40_alu_unit.md R137). -/
theorem loadTwo_of_ne_zero (c : CoreState) (a : Word) {b : Word} (hb : b ≠ 0) :
    loadTwo c a b = .ok { c with flags := flagsOfPair a b, p := slotsOfPair c.p a b } := by
  rcases loadTwo_cases c a b with ⟨hz, _⟩ | ⟨_, e⟩
  · exact absurd hz hb
  · rw [e, compareTwo_eq_flagsOfPair, cachedResults_eq_slotsOfPair]

theorem loadOne_eq_slotsOfPair (c : CoreState) (a : Word) :
    loadOne c a = .ok { c with flags := flagsOfOne a, p := slotsOfPair c.p a 0xFFFFFFFF } := by
  rw [loadOne_eq, compareOne_eq_flagsOfOne, cachedResults_eq_slotsOfPair]

/-! ### An instruction that writes one register -/

/-- What an instruction does that writes one register and ends (30_encoding.md R104). -/
theorem wroteReg_writeBack_setReg (s : State) (words : Word) (r : Reg) (v : Word) :
    wroteReg s (writeBack (setReg s r v) (s.core.pc + words)) words r v := by
  refine ⟨fun hr => ?_, ?_, fun q hq hpc => ?_, ?_, fun a => ?_, ?_⟩
  · rw [getReg_writeBack_other _ _ _ hr, getReg_setReg_same]
  · rw [getReg_writeBack, if_pos rfl]; rfl
  · rw [getReg_writeBack_other _ _ _ hpc, getReg_setReg_other _ _ _ _ fun e => hq (by simp [e])]
  · rw [writeBack_core_p, setReg_core_p]
  · rw [writeBack_ram, setReg_ram]
  · cases r <;> rfl

/-! ### An instruction that loads -/

/-- The state with the executing Core's `FLAGS` and protected registers replaced. -/
def withCache (s : State) (flags : Word) (p : Vector Word 13) : State :=
  { s with core := { s.core with flags := flags, p := p } }

theorem getReg_withCache_flags (s : State) (flags : Word) (p : Vector Word 13) :
    getReg (withCache s flags p) .flags = flags := rfl

theorem getReg_withCache_other (s : State) (flags : Word) (p : Vector Word 13) {q : Reg}
    (hq : q ≠ .flags) : getReg (withCache s flags p) q = getReg s q := by
  cases q with
  | flags => exact absurd rfl hq
  | _ => rfl

/-- An instruction of `words` words that loads and writes `v` to register `r` and nothing else: a value
written to `PC` is lost (10_state.md R30), one written to `FLAGS` replaces what the compare set. -/
def wroteThroughLoad (s t : State) (words : Word) (r : Reg) (v flags : Word) (p : Vector Word 13) :
    Prop :=
  (r ≠ .pc → getReg t r = v) ∧ (r ≠ .flags → getReg t .flags = flags) ∧
    getReg t .pc = getReg s .pc + words ∧ regsKept [r, .flags] s t ∧ t.core.p = p ∧ ramKept s t ∧
    restKept s t

/-- Once the cache is filled, such an instruction is one that writes a register. -/
theorem wroteThroughLoad_of_wroteReg {s t : State} {words : Word} {r : Reg} {v flags : Word}
    {p : Vector Word 13} (h : wroteReg (withCache s flags p) t words r v) :
    wroteThroughLoad s t words r v flags p := by
  obtain ⟨hdst, hpc, hregs, hp, hram, hrest⟩ := h
  refine ⟨hdst, fun hr => ?_, hpc, fun q hq hqpc => ?_, hp, hram, hrest⟩
  · rw [hregs .flags (by simpa using hr.symm) nofun, getReg_withCache_flags]
  · have hne : q ≠ r ∧ q ≠ .flags := by simpa using hq
    rw [hregs q (by simpa using hne.1) hqpc, getReg_withCache_other s flags p hne.2]

theorem wroteThroughLoad_withCache (s : State) (words : Word) (r : Reg) (v flags : Word)
    (p : Vector Word 13) :
    wroteThroughLoad s (writeBack (setReg (withCache s flags p) r v) (s.core.pc + words))
      words r v flags p :=
  wroteThroughLoad_of_wroteReg (wroteReg_writeBack_setReg (withCache s flags p) words r v)

theorem exec_arithRlForm (op : AluOp) (s : State) {d : Word} (v : Word) {r : Reg}
    (hd : regOfWord d = some r) :
    exec (arithRlForm op d v) s = arithInto op r (getReg s r) v s := by
  have harm : exec (arithRlForm op d v) s = arithRl op d v s := by cases op <;> rfl
  rw [harm, arithRl, withReg_some s d r _ hd]

theorem exec_arithRrForm (op : AluOp) (s : State) {d w : Word} {r q : Reg}
    (hd : regOfWord d = some r) (hw : regOfWord w = some q) :
    exec (arithRrForm op d w) s = arithInto op r (getReg s r) (getReg s q) s := by
  have harm : exec (arithRrForm op d w) s = arithRr op d w s := by cases op <;> rfl
  rw [harm, arithRr, withRegs_some s d w r q _ hd hw]

/-- The end of an arithmetic instruction through the load protocol (40_alu_unit.md R139). -/
theorem arithInto_viaLoad (op : AluOp) (r : Reg) (a : Word) {b : Word} {s : State}
    (hl : s.arithViaLoad = true) (hb : b ≠ 0) :
    arithInto op r a b s = .next (writeBack
      (setReg (withCache s (flagsOfPair a b) (slotsOfPair s.core.p a b)) r (arithResult op a b))
      (s.core.pc + 3)) := by
  rcases aluCompute_load_cases op s.core a b with ⟨hz, _⟩ | ⟨_, e⟩
  · exact absurd hz hb
  · rw [compareTwo_eq_flagsOfPair, cachedResults_eq_slotsOfPair, aluValue_eq_arithResult, ← hl] at e
    rw [arithInto, e, orFault_ok]
    rfl

theorem execNotR_viaLoad {s : State} {d : Word} {r : Reg} (hl : s.arithViaLoad = true)
    (hd : regOfWord d = some r) :
    execNotR d s = .next (writeBack
      (setReg (withCache s (flagsOfOne (getReg s r)) (slotsOfPair s.core.p (getReg s r) 0xFFFFFFFF)) r
        (~~~(getReg s r))) (s.core.pc + 2)) := by
  rw [execNotR, withReg_some s d r _ hd, aluComputeNot_eq, if_pos hl, orFault_ok,
    compareOne_eq_flagsOfOne, cachedResults_eq_slotsOfPair]
  rfl

/-! ### A test bench that loads -/

theorem turnOf_modifyCore (s : State) (i : Nat) (f : CoreState → CoreState) :
    turnOf (modifyCore s i f) = turnOf s := by
  unfold modifyCore turnOf
  split
  · exact List.length_modify f s.coresBefore i
  · split <;> rfl

/-- A load on Core `i` that succeeds replaces that Core and reports that it is done (log 13). -/
theorem hostLoad_ok {s : State} {i : Nat} {c c' : CoreState}
    (load : CoreState → Except FaultSignal CoreState) (hc : (coreList s)[i]? = some c)
    (hload : load c = .ok c') :
    ∃ t, hostLoad i load s = .next t ∧ coreList t = (coreList s).set i c' ∧ turnOf t = turnOf s ∧
      t = { s with
        coresBefore := t.coresBefore
        core := t.core
        coresAfter := t.coresAfter
        hostReport := .done } := by
  refine ⟨{ modifyCore s i (fun _ => c') with hostReport := .done }, ?_, ?_,
    turnOf_modifyCore s i fun _ => c', ?_⟩
  · simp only [hostLoad, hc, hload]
  · exact (coreList_modifyCore s i fun _ => c').trans (List.set_eq_modify c' i _).symm
  · obtain ⟨before, core, after, e⟩ := modifyCore_eq s i fun _ => c'
    rw [e]

/-- A load that fails changes nothing and is reported to the caller (40_alu_unit.md R138; log 19). -/
theorem hostLoad_error {s : State} {i : Nat} {c : CoreState} {f : FaultSignal}
    (load : CoreState → Except FaultSignal CoreState) (hc : (coreList s)[i]? = some c)
    (hload : load c = .error f) :
    hostLoad i load s = .next { s with hostReport := .divideByZero f.info } := by
  simp only [hostLoad, hc, hload]

/-! ### The obligations -/

/-- Settles O16: the model's compares are the masks of the rules. -/
theorem compareFlagRules : Obligations.CompareFlagRules :=
  fun reg a b => ⟨compareOne_eq_flagsOfOne reg a, compareTwo_eq_flagsOfPair reg a b⟩

/-- Settles O17, by the three relations that the operands can have. -/
theorem compareSetsExactlyOneRelation : Obligations.CompareSetsExactlyOneRelation := by
  intro reg a b
  have hnegative : ∀ x : Word, x.msb = decide (2 ^ 31 ≤ x.toNat) := BitVec.msb_eq_decide
  have hzero : ∀ x : Word, (x == 0) = decide (x.toNat = 0) := fun x => by
    rw [beq_eq_decide, decide_eq_decide, eq_zero_iff_toNat_eq_zero]
  simp only [getFlag_compareTwo, hnegative, hzero]
  rcases relationFlag_cases a b with ⟨h, hrel⟩ | ⟨h, hrel⟩ | ⟨h, hrel⟩
  · simp [hrel, h]
  · simp [hrel, h, h.ne', h.le]
  · simp [hrel, h, h.ne, h.le]

/-- Settles O22: both operand forms end in the same way, with a second operand that is zero or not. -/
theorem arithmeticThroughLoad : Obligations.ArithmeticThroughLoad := by
  intro op s d v w r q hl hd hw i b hform
  have hexec : exec i s = arithInto op r (getReg s r) b s := by
    rcases hform with ⟨rfl, rfl⟩ | ⟨rfl, rfl⟩
    · exact exec_arithRlForm op s b hd
    · exact exec_arithRrForm op s hd hw
  refine ⟨?_, fun hb => ⟨_, hexec.trans (arithInto_viaLoad op r _ hl hb),
    wroteThroughLoad_withCache s 3 r _ _ _⟩⟩
  rintro rfl
  rw [hexec, arithInto_zero op r _ s (.inl hl), takeFault_eq_faultTaken]

/-- Settles O23: the load of the one operand never fails. -/
theorem notThroughLoad : Obligations.NotThroughLoad :=
  fun s _ r hl hd => ⟨_, execNotR_viaLoad hl hd, wroteThroughLoad_withCache s 2 r _ _ _⟩

/-- Settles O24, a lemma for each primitive. -/
theorem aluPrimitiveRules : Obligations.AluPrimitiveRules := by
  intro a b
  refine ⟨toNat_aluAdd a b, toNat_aluSub a b, toNat_aluMul a b, fun hb => ?_, fun hb => ?_,
    fun k hk => ⟨BitVec.getLsbD_and, BitVec.getLsbD_or, getLsbD_aluNor a b hk⟩, toNat_aluNot a, rfl,
    aluXor_eq a b⟩
  · rcases divF_cases a b with ⟨_, e⟩ | ⟨hne, _⟩
    · exact e
    · exact absurd hb hne
  · rcases divF_cases a b with ⟨hz, _⟩ | ⟨_, e⟩
    · exact absurd hz hb
    · exact ⟨_, _, e, BitVec.toNat_umod, BitVec.toNat_udiv⟩

/-- Settles O25: the host's action is a load on the Core, which fails for a zero second operand only. -/
theorem loadFillsEverySlot : Obligations.LoadFillsEverySlot := by
  intro s i c a b hc
  refine ⟨?_, fun hb => hostLoad_ok (fun c => loadTwo c a b) hc (loadTwo_of_ne_zero c a hb),
    hostLoad_ok (fun c => loadOne c a) hc (loadOne_eq_slotsOfPair c a)⟩
  rintro rfl
  exact hostLoad_error (fun c => loadTwo c a 0) hc (loadTwo_zero c a)

end Sys2Proof.Machine

/-! PROOFS of the family 41_system.md. First the interrupt as its rules state it, and what each of the four
instructions is; then the steps of a machine whose CPU is dead; then the obligations. -/

namespace Sys2Proof.Machine

open Sys2Proof.Claims

/-! ### The interrupt -/

/-- Task 0x03 with the display's answer read off the list (60_exceptions.md R274; log 9). -/
theorem resolutionTask_eq (s : State) :
    resolutionTask s = { s with
      core := { s.core with
        g := (s.core.g.set 1 (s.displayInputs.head?.elim 0 DisplaySize.width)).set 2
          (s.displayInputs.head?.elim 0 DisplaySize.height) }
      displayInputs := s.displayInputs.tail } := by
  rw [resolutionTask, sampleDisplay]
  cases hd : s.displayInputs with
  | nil => simp [setReg, hd]
  | cons d rest => rfl

/-- The rules' outcome of an interrupt, with the vector and the task code as words and the two tasks by
name (60_exceptions.md R271 to R275). -/
theorem afterInterrupt_eq (s : State) (vector : Word) :
    afterInterrupt s vector =
      if vector = 0x10 ∧ getReg s (.g 0) = 1 then setPixelTask s
      else if vector = 0x10 ∧ getReg s (.g 0) = 3 then resolutionTask s
      else s := by
  have hvector : vector.toNat = 0x10 ↔ vector = 0x10 := BitVec.toNat_inj (y := 0x10)
  have htask1 : s.core.g[0].toNat = 1 ↔ getReg s (.g 0) = 1 := BitVec.toNat_inj (y := 1)
  have htask3 : s.core.g[0].toNat = 3 ↔ getReg s (.g 0) = 3 := BitVec.toNat_inj (y := 3)
  simp only [afterInterrupt, hvector, htask1, htask3, resolutionTask_eq]
  rfl

theorem callInterrupt_eq_afterInterrupt (s : State) (vector : Word) :
    callInterrupt s vector = afterInterrupt s vector := by
  rw [afterInterrupt_eq]
  rcases callInterrupt_cases s vector with ⟨hnone, e⟩ | ⟨hv, h1, e⟩ | ⟨hv, h3, e⟩
  · rw [e, if_neg fun h => hnone ⟨h.1, .inl h.2⟩, if_neg fun h => hnone ⟨h.1, .inr h.2⟩]
  · rw [e, if_pos ⟨hv, h1⟩]
  · have h1 : ¬getReg s (.g 0) = 1 := by rw [h3]; decide
    rw [e, if_neg fun h => h1 h.2, if_pos ⟨hv, h3⟩]

/-! ### The four instructions -/

theorem exec_nop (s : State) : exec .nop s = .next (atPc s (s.core.pc + 1)) := rfl

theorem exec_halt (s : State) : exec .halt s = .next (atPc (callHalt s) (s.core.pc + 1)) := rfl

/-- `INT_L` ends with the interrupt of its literal (41_system.md R151). -/
theorem exec_intL (s : State) (vector : Word) :
    exec (.intL vector) s = .next (atPc (afterInterrupt s vector) (s.core.pc + 2)) := by
  rw [← callInterrupt_eq_afterInterrupt]
  rfl

/-- With a register operand, `INT_R` is `INT_L` with the register's value (41_system.md R152). -/
theorem exec_intR_some (s : State) {w : Word} {r : Reg} (h : regOfWord w = some r) :
    exec (.intR w) s = exec (.intL (getReg s r)) s :=
  withReg_some s w r _ h

theorem exec_intR_outOfRange (s : State) {w : Word} (h : 0x1A < w.toNat) :
    exec (.intR w) s = .next (faultTaken s .addressOutOfRangeRegister w) := by
  rw [← takeFault_eq_faultTaken]
  exact withReg_none s w _ ((regOfWord_eq_none_iff w).2 h)

/-! ### A machine whose CPU is dead -/

theorem run_succ_of_step {M : Host.Core} {s t : M.State} (h : M.step s = .next t) (n : Nat) :
    M.run (n + 1) s = M.run n t := by
  simp only [Host.Core.run, h]

/-- `t` has the Cores of `s` in the same order and differs from it in nothing but whose turn it is. -/
def OnlyTurnPassed (s t : State) : Prop :=
  coreList t = coreList s ∧
    t = { s with coresBefore := t.coresBefore, core := t.core, coresAfter := t.coresAfter }

theorem OnlyTurnPassed.refl (s : State) : OnlyTurnPassed s s := ⟨rfl, rfl⟩

theorem OnlyTurnPassed.trans {s t u : State} (hst : OnlyTurnPassed s t) (htu : OnlyTurnPassed t u) :
    OnlyTurnPassed s u := by
  obtain ⟨hcores, hrest⟩ := hst
  obtain ⟨hcores', hrest'⟩ := htu
  refine ⟨hcores'.trans hcores, ?_⟩
  rw [hrest] at hrest'
  exact hrest'

theorem onlyTurnPassed_endTurn (s : State) : OnlyTurnPassed s (endTurn s) := by
  refine ⟨coreList_endTurn s, ?_⟩
  obtain ⟨_, _, _, e⟩ := endTurn_eq s
  rw [e]

/-- The CPU is dead, no host action is pending, and the configuration is admitted. -/
structure Halted (s : State) : Prop where
  cpuDead : s.cpuAlive = false
  noHostAction : s.host = []
  config : configOk s = true

theorem Halted.step_eq_endTurn {s : State} (h : Halted s) : step s = .next (endTurn s) := by
  rw [step_coreTurn h.config (.inr h.noHostAction), coreTurn_dead (.inl h.cpuDead)]

theorem Halted.endTurn {s : State} (h : Halted s) : Halted (endTurn s) := by
  obtain ⟨_, _, _, e⟩ := endTurn_eq s
  rw [e]
  exact ⟨h.cpuDead, h.noHostAction, h.config⟩

/-- A dead CPU stays dead, and each of its steps passes the turn (60_exceptions.md R287, R289). -/
theorem Halted.run_onlyTurnPassed (n : Nat) {s : State} (h : Halted s) :
    ∃ t, Sys2Proof.core.run n s = .next t ∧ OnlyTurnPassed s t := by
  induction n generalizing s with
  | zero => exact ⟨s, rfl, .refl s⟩
  | succ n ih =>
    obtain ⟨t, hrun, hpassed⟩ := ih h.endTurn
    exact ⟨t, (run_succ_of_step h.step_eq_endTurn n).trans hrun, (onlyTurnPassed_endTurn s).trans hpassed⟩

/-! ### The obligations -/

/-- Settles O9: the model's interrupt is the one of the rules. -/
theorem intLiteralCallsInterrupt : Obligations.IntLiteralCallsInterrupt :=
  fun s vector => ⟨rfl, exec_intL s vector⟩

/-- Settles O10: with a valid operand `INT_R` is an `INT_L`. -/
theorem intRegisterCallsInterrupt : Obligations.IntRegisterCallsInterrupt :=
  fun s _ => ⟨rfl, fun r hr => (exec_intR_some s hr).trans (exec_intL s (getReg s r)),
    exec_intR_outOfRange s⟩

/-- Settles O12, by induction on the number of steps. -/
theorem deadCpuNeverExecutesAgain : Obligations.DeadCpuNeverExecutesAgain :=
  fun n _ hcpu hhost hconfig => Halted.run_onlyTurnPassed n ⟨hcpu, hhost, hconfig⟩

/-- Settles O8: the write-back is all that `NOP` does. -/
theorem nopAdvancesPc : Obligations.NopAdvancesPc :=
  ⟨rfl, exec_nop⟩

/-- Settles O11: `call_halt` clears the alive flags, and the write-back follows it. -/
theorem haltStopsEveryCore : Obligations.HaltStopsEveryCore :=
  ⟨rfl, exec_halt⟩

end Sys2Proof.Machine

/-! PROOFS of the family 42_move.md. First the register fault of a register operand in the words of its rule,
for every family; then the two moves; then the obligations. -/

namespace Sys2Proof.Machine

open Sys2Proof.Claims

/-! ### The register fault of an operand -/

theorem exists_regOfWord {w : Word} (h : w.toNat ≤ 0x1A) : ∃ r, regOfWord w = some r :=
  Option.ne_none_iff_exists'.1 fun hnone => Nat.not_lt.2 h ((regOfWord_eq_none_iff w).1 hnone)

/-- A register operand above 0x1A is the register fault (10_state.md R28). -/
theorem withReg_outOfRange (s : State) {w : Word} (k : Reg → Result) (h : 0x1A < w.toNat) :
    withReg s w k = .next (faultTaken s .addressOutOfRangeRegister w) := by
  rw [withReg_none s w k ((regOfWord_eq_none_iff w).2 h), takeFault_eq_faultTaken]

/-- The fault of operand 1, whatever operand 2 is (30_encoding.md R103). -/
theorem withRegs_outOfRange_left (s : State) {v : Word} (w : Word) (k : Reg → Reg → Result)
    (hv : 0x1A < v.toNat) :
    withRegs s v w k = .next (faultTaken s .addressOutOfRangeRegister v) :=
  withReg_outOfRange s _ hv

/-- The fault of operand 2, once operand 1 is valid (30_encoding.md R103). -/
theorem withRegs_outOfRange_right (s : State) {v w : Word} (k : Reg → Reg → Result)
    (hv : v.toNat ≤ 0x1A) (hw : 0x1A < w.toNat) :
    withRegs s v w k = .next (faultTaken s .addressOutOfRangeRegister w) := by
  obtain ⟨r, hr⟩ := exists_regOfWord hv
  rw [withRegs, withReg_some s v r _ hr, withReg_outOfRange s _ hw]

/-! ### The two moves -/

theorem exec_movRl_some (s : State) {d : Word} (v : Word) {r : Reg} (hd : regOfWord d = some r) :
    exec (.movRl d v) s = .next (writeBack (setReg s r v) (s.core.pc + 3)) :=
  withReg_some s d r _ hd

/-- With valid operands, `MOV_RR` is `MOV_RL` with the source's old value (42_move.md R161). -/
theorem exec_movRr_some (s : State) {d w : Word} {r q : Reg} (hd : regOfWord d = some r)
    (hw : regOfWord w = some q) : exec (.movRr d w) s = exec (.movRl d (getReg s q)) s :=
  (withRegs_some s d w r q _ hd hw).trans (exec_movRl_some s (getReg s q) hd).symm

/-- `MOV_RL` to a valid destination completes and writes that register alone (42_move.md R160). -/
theorem exec_movRl_wroteReg (s : State) {d : Word} (v : Word) {r : Reg} (hd : regOfWord d = some r) :
    ∃ t, exec (.movRl d v) s = .next t ∧ wroteReg s t 3 r v :=
  ⟨_, exec_movRl_some s v hd, wroteReg_writeBack_setReg s 3 r v⟩

/-! ### The obligations -/

/-- Settles O13: the destination is valid, or its register fault is taken. -/
theorem movLiteralWritesDestination : Obligations.MovLiteralWritesDestination :=
  fun s _ v => ⟨rfl, fun _ hd => exec_movRl_wroteReg s v hd, withReg_outOfRange s _⟩

/-- Settles O14: with valid operands `MOV_RR` is a `MOV_RL`, and the first operand that is not valid
faults. -/
theorem movRegisterCopiesSource : Obligations.MovRegisterCopiesSource := by
  intro s d w
  refine ⟨rfl, fun r q hd hw => ?_, withRegs_outOfRange_left s w _, withRegs_outOfRange_right s _⟩
  rw [exec_movRr_some s hd hw]
  exact exec_movRl_wroteReg s (getReg s q) hd

end Sys2Proof.Machine

/-! PROOFS of the family 43_compare.md. First what each of the three compares is when its register operands
are valid; then the obligation. -/

namespace Sys2Proof.Machine

open Sys2Proof.Claims

/-- `COMP_LL` in the masks of the rules: `FLAGS` and `PC` are all it writes (43_compare.md R165). -/
theorem exec_compLl (s : State) (a b : Word) :
    exec (.compLl a b) s = .next { s with
      core := { s.core with flags := flagsOfPair a b, pc := s.core.pc + 3 } } := by
  rw [← compareTwo_eq_flagsOfPair s.core.flags a b]
  rfl

/-- With a valid operand 1, `COMP_RL` is `COMP_LL` with the register's value (43_compare.md R166). -/
theorem exec_compRl_some (s : State) {a : Word} (b : Word) {r : Reg} (ha : regOfWord a = some r) :
    exec (.compRl a b) s = exec (.compLl (getReg s r) b) s :=
  withReg_some s a r _ ha

/-- With valid operands, `COMP_RR` is `COMP_LL` with the two registers' values (43_compare.md R167). -/
theorem exec_compRr_some (s : State) {a b : Word} {r q : Reg} (ha : regOfWord a = some r)
    (hb : regOfWord b = some q) :
    exec (.compRr a b) s = exec (.compLl (getReg s r) (getReg s q)) s :=
  withRegs_some s a b r q _ ha hb

/-! ### The obligation -/

/-- Settles O15: with valid operands each compare is a `COMP_LL` of the two values, and the first operand
that is not valid faults. -/
theorem compareWritesFlags : Obligations.CompareWritesFlags := by
  intro s a b
  refine ⟨rfl, rfl, rfl, exec_compLl s a b, fun r ha => ?_, fun r q ha hb => ?_, fun ha => ⟨?_, ?_⟩,
    withRegs_outOfRange_right s _⟩
  · rw [exec_compRl_some s b ha, exec_compLl]
  · rw [exec_compRr_some s ha hb, exec_compLl]
  · exact withReg_outOfRange s _ ha
  · exact withRegs_outOfRange_left s b _ ha

end Sys2Proof.Machine

/-! PROOFS of the family 44_arith_logic.md. First what the two operand forms of an operation are, and how the
literal form ends; then the obligations. -/

namespace Sys2Proof.Machine

open Sys2Proof.Claims

/-! ### The two operand forms -/

theorem encode_arithRlForm (op : AluOp) (d v : Word) :
    encode (arithRlForm op d v) = [arithOpcode op, d, v] := by
  cases op <;> rfl

theorem encode_arithRrForm (op : AluOp) (d w : Word) :
    encode (arithRrForm op d w) = [arithOpcode op + 1, d, w] := by
  cases op <;> rfl

theorem exec_arithRlForm_eq_arithRl (op : AluOp) (s : State) (d v : Word) :
    exec (arithRlForm op d v) s = arithRl op d v s := by
  cases op <;> rfl

theorem exec_arithRrForm_eq_arithRr (op : AluOp) (s : State) (d w : Word) :
    exec (arithRrForm op d w) s = arithRr op d w s := by
  cases op <;> rfl

section
variable (op : AluOp) (s : State) {d : Word} {r : Reg} (hd : regOfWord d = some r)
include hd

/-- With valid operands, the `_RR` form is the `_RL` form with the source's old value
(44_arith_logic.md R170). -/
theorem exec_arithRrForm_some {w : Word} {q : Reg} (hw : regOfWord w = some q) :
    exec (arithRrForm op d w) s = exec (arithRlForm op d (getReg s q)) s :=
  (exec_arithRrForm op s hd hw).trans (exec_arithRlForm op s (getReg s q) hd).symm

/-- A division by zero takes the fault with the dividend, under both values of `ARITH_VIA_LOAD`
(44_arith_logic.md R177). -/
theorem exec_arithRlForm_divideByZero {v : Word} (hz : op = .div ∧ v = 0) :
    exec (arithRlForm op d v) s = .next (faultTaken s .divideByZero (getReg s r)) := by
  obtain ⟨hop, rfl⟩ := hz
  rw [exec_arithRlForm op s 0 hd, arithInto_zero op r _ s (.inr hop), takeFault_eq_faultTaken]

/-- Any other operation completes and writes its result to the destination alone
(44_arith_logic.md R170). -/
theorem exec_arithRlForm_wroteReg {v : Word} (hl : s.arithViaLoad = false) (hz : ¬(op = .div ∧ v = 0)) :
    ∃ t, exec (arithRlForm op d v) s = .next t ∧
      wroteReg s t 3 r (arithResult op (getReg s r) v) := by
  refine ⟨_, ?_, wroteReg_writeBack_setReg s 3 r _⟩
  rw [exec_arithRlForm_eq_arithRl, arithRl_direct op d v r s hd hl (not_and.1 hz),
    aluValue_eq_arithResult]

end

/-! ### The complement -/

/-- `NOT_R` with a valid operand: nothing is loaded (44_arith_logic.md R189). -/
theorem execNotR_direct {s : State} {d : Word} {r : Reg} (hl : s.arithViaLoad = false)
    (hd : regOfWord d = some r) :
    execNotR d s = .next (writeBack (setReg s r (aluNot (getReg s r))) (s.core.pc + 2)) := by
  rw [execNotR, withReg_some s d r _ hd, aluComputeNot_eq, if_neg (Bool.eq_false_iff.1 hl), orFault_ok]
  rfl

/-! ### The obligations -/

/-- Settles O19: the destination is valid, or its register fault is taken; with a valid one the instruction
divides by zero, or it completes. -/
theorem arithmeticLiteralResult : Obligations.ArithmeticLiteralResult := by
  intro op s d v
  have hexec : exec (arithRlForm op d v) s = arithRl op d v s := exec_arithRlForm_eq_arithRl op s d v
  refine ⟨encode_arithRlForm op d v, fun hd => ?_, fun hl r hd => ⟨?_, ?_⟩⟩
  · exact hexec.trans (withReg_outOfRange s _ hd)
  · exact exec_arithRlForm_divideByZero op s hd
  · exact exec_arithRlForm_wroteReg op s hd hl

/-- Settles O20: with valid operands the instruction is its `_RL` form, and the first operand that is not
valid faults. -/
theorem arithmeticRegisterResult : Obligations.ArithmeticRegisterResult := by
  intro op s d w
  have hexec : exec (arithRrForm op d w) s = arithRr op d w s := exec_arithRrForm_eq_arithRr op s d w
  refine ⟨encode_arithRrForm op d w, fun hd => ?_, fun hd hw => ?_, fun hl r q hd hw => ?_⟩
  · exact hexec.trans (withRegs_outOfRange_left s w _ hd)
  · exact hexec.trans (withRegs_outOfRange_right s _ hd hw)
  · rw [exec_arithRrForm_some op s hd hw]
    exact ⟨exec_arithRlForm_divideByZero op s hd, exec_arithRlForm_wroteReg op s hd hl⟩

/-- Settles O21: the complement of a word is `0xFFFFFFFF` minus it. -/
theorem notComplementsRegister : Obligations.NotComplementsRegister := by
  intro s d
  refine ⟨rfl, withReg_outOfRange s _, fun hl r hd => ⟨_, execNotR_direct hl hd, ?_⟩⟩
  rw [← eq_ofNat_of_toNat_eq (toNat_aluNot (getReg s r))]
  exact wroteReg_writeBack_setReg s 2 r _

end Sys2Proof.Machine

/-! PROOFS of the family 45_shift.md. First the two shifts in the arithmetic of their rule; then what the
forms of the two lists are, and how the literal form ends; then the obligations. -/

namespace Sys2Proof.Machine

open Sys2Proof.Claims

/-! ### The two shifts -/

/-- The left shift is the rule's result for every count (45_shift.md R196, R197). -/
theorem lshift_eq_shiftResult : lshift = shiftResult .left := by
  funext a n
  rcases Nat.lt_or_ge n.toNat 32 with hsmall | hover
  · rw [lshift_small a n hsmall, shiftResult, if_pos (Nat.le_of_lt_succ hsmall)]
    exact eq_ofNat_of_toNat_eq (by rw [BitVec.toNat_shiftLeft, Nat.shiftLeft_eq])
  · rw [lshift_over a n hover, shiftResult, if_neg (Nat.not_le.2 hover)]

/-- The right shift is the rule's result for every count (45_shift.md R196, R197). -/
theorem rshift_eq_shiftResult : rshift = shiftResult .right := by
  funext a n
  rcases Nat.lt_or_ge n.toNat 32 with hsmall | hover
  · rw [rshift_small a n hsmall, shiftResult, if_pos (Nat.le_of_lt_succ hsmall)]
    exact eq_ofNat_of_toNat_eq (by rw [BitVec.toNat_ushiftRight, Nat.shiftRight_eq_div_pow])
  · rw [rshift_over a n hover, shiftResult, if_neg (Nat.not_le.2 hover)]

/-! ### The forms of the two lists -/

/-- Each `_RL` form has its opcode and shifts in its direction, the CARRY forms like the others
(45_shift.md R195, R196). -/
theorem shiftRlForms_spec {d v : Word} {e : Instr × Word × ShiftDir} (he : e ∈ shiftRlForms d v)
    (s : State) :
    encode e.1 = [e.2.1, d, v] ∧ exec e.1 s = shiftRl (shiftResult e.2.2) d v s := by
  simp only [shiftRlForms, List.mem_cons, List.not_mem_nil, or_false] at he
  rcases he with rfl | rfl | rfl | rfl
  · exact ⟨rfl, lshift_eq_shiftResult ▸ rfl⟩
  · exact ⟨rfl, rshift_eq_shiftResult ▸ rfl⟩
  · exact ⟨rfl, lshift_eq_shiftResult ▸ rfl⟩
  · exact ⟨rfl, rshift_eq_shiftResult ▸ rfl⟩

/-- The same for the `_RR` forms (45_shift.md R195, R196). -/
theorem shiftRrForms_spec {d w : Word} {e : Instr × Word × ShiftDir} (he : e ∈ shiftRrForms d w)
    (s : State) :
    encode e.1 = [e.2.1, d, w] ∧ exec e.1 s = shiftRr (shiftResult e.2.2) d w s := by
  simp only [shiftRrForms, List.mem_cons, List.not_mem_nil, or_false] at he
  rcases he with rfl | rfl | rfl | rfl
  · exact ⟨rfl, lshift_eq_shiftResult ▸ rfl⟩
  · exact ⟨rfl, rshift_eq_shiftResult ▸ rfl⟩
  · exact ⟨rfl, lshift_eq_shiftResult ▸ rfl⟩
  · exact ⟨rfl, rshift_eq_shiftResult ▸ rfl⟩

section
variable (shift : Word → Word → Word) (s : State) {d : Word} {r : Reg} (hd : regOfWord d = some r)
include hd

/-- With a valid register the literal form completes and writes that register alone
(45_shift.md R195). -/
theorem shiftRl_wroteReg (v : Word) :
    ∃ t, shiftRl shift d v s = .next t ∧ wroteReg s t 3 r (shift (getReg s r) v) :=
  ⟨_, withReg_some s d r _ hd, wroteReg_writeBack_setReg s 3 r _⟩

/-- With valid operands, the register form is the literal form with the count's old value
(45_shift.md R195). -/
theorem shiftRr_some {w : Word} {q : Reg} (hw : regOfWord w = some q) :
    shiftRr shift d w s = shiftRl shift d (getReg s q) s := by
  rw [shiftRr, withRegs_some s d w r q _ hd hw, shiftRl, withReg_some s d r _ hd]

end

/-! ### The obligations -/

/-- Settles O26: each form is the literal skeleton with the rule's result; its register is valid, or the
register fault is taken. -/
theorem shiftByLiteralResult : Obligations.ShiftByLiteralResult := by
  intro s d v e he
  obtain ⟨hencode, hexec⟩ := shiftRlForms_spec he s
  rw [hexec]
  exact ⟨hencode, withReg_outOfRange s _, fun r hd => shiftRl_wroteReg _ s hd v⟩

/-- Settles O27: with valid operands each form is the literal one with the count's old value, and the first
operand that is not valid faults. -/
theorem shiftByRegisterResult : Obligations.ShiftByRegisterResult := by
  intro s d w e he
  obtain ⟨hencode, hexec⟩ := shiftRrForms_spec he s
  rw [hexec]
  refine ⟨hencode, withRegs_outOfRange_left s w _, withRegs_outOfRange_right s _, fun r q hd hw => ?_⟩
  rw [shiftRr_some _ s hd hw]
  exact shiftRl_wroteReg _ s hd (getReg s q)

end Sys2Proof.Machine

/-! PROOFS of the family 46_control.md. First the jumps, as branches on a condition; then one push and one
pop, each with the states that fix its outcome, and what a call and a return are by them; then several words
pushed and popped; then the obligations. -/

namespace Sys2Proof.Machine

open Sys2Proof.Claims

/-! ### The conditional jumps -/

/-- Each literal form has its opcode and branches on a condition whose value for the given flags is the one
the rule reads off their bits (46_control.md R213, R215, R217, R219, R221, R223). -/
theorem jumpLForms_spec {target flags : Word} {e : Instr × Word × Bool} (he : e ∈ jumpLForms target flags)
    (s : State) :
    encode e.1 = [e.2.1, target] ∧ ∃ cond : Word → Bool, cond flags = e.2.2 ∧
      exec e.1 s = branchTo cond target s := by
  simp only [jumpLForms, List.mem_cons, List.not_mem_nil, or_false] at he
  rcases he with rfl | rfl | rfl | rfl | rfl | rfl
  · exact ⟨rfl, condEq, rfl, rfl⟩
  · exact ⟨rfl, condLt, rfl, rfl⟩
  · exact ⟨rfl, condGt, rfl, rfl⟩
  · exact ⟨rfl, condNeq, rfl, rfl⟩
  · exact ⟨rfl, condGteq, rfl, rfl⟩
  · exact ⟨rfl, condLteq, rfl, rfl⟩

/-- The same for the register forms (46_control.md R214, R216, R218, R220, R222, R224). -/
theorem jumpRForms_spec {w flags : Word} {e : Instr × Word × Bool} (he : e ∈ jumpRForms w flags)
    (s : State) :
    encode e.1 = [e.2.1, w] ∧ ∃ cond : Word → Bool, cond flags = e.2.2 ∧
      exec e.1 s = branchThrough cond w s := by
  simp only [jumpRForms, List.mem_cons, List.not_mem_nil, or_false] at he
  rcases he with rfl | rfl | rfl | rfl | rfl | rfl
  · exact ⟨rfl, condEq, rfl, rfl⟩
  · exact ⟨rfl, condLt, rfl, rfl⟩
  · exact ⟨rfl, condGt, rfl, rfl⟩
  · exact ⟨rfl, condNeq, rfl, rfl⟩
  · exact ⟨rfl, condGteq, rfl, rfl⟩
  · exact ⟨rfl, condLteq, rfl, rfl⟩

/-- A branch changes `PC` alone: it is the target or the address after two words (46_control.md R230). -/
theorem branchTo_atPc (cond : Word → Bool) (target : Word) (s : State) :
    branchTo cond target s = .next (atPc s (if cond s.core.flags then target else s.core.pc + 2)) :=
  branchTo_eq cond target s

/-- Through a valid register, a branch is the one to the register's value (46_control.md R230). -/
theorem branchThrough_some (cond : Word → Bool) (s : State) {w : Word} {r : Reg}
    (h : regOfWord w = some r) : branchThrough cond w s = branchTo cond (getReg s r) s :=
  withReg_some s w r _ h

/-! ### The unconditional jumps -/

theorem exec_jmpL (s : State) (target : Word) : exec (.jmpL target) s = .next (atPc s target) := rfl

/-- With a valid register, `JMP_R` is `JMP_L` to the register's value (46_control.md R226). -/
theorem exec_jmpR_some (s : State) {w : Word} {r : Reg} (h : regOfWord w = some r) :
    exec (.jmpR w) s = exec (.jmpL (getReg s r)) s :=
  withReg_some s w r _ h

/-! ### One word pushed -/

/-- The state after a push in range (46_control.md R210). -/
def pushed (s : State) (v : Word) : State :=
  { s with
    ram := writeWord s.ram s.core.sp.toNat v
    core := { s.core with sp := s.core.sp - 1 } }

theorem stackPush_inRange {s : State} (v : Word) (h : s.core.sp.toNat < s.ramCapacity) :
    stackPush s v = .ok (pushed s v) := by
  rw [stackPush, memWrite_inRange s s.core.sp v h]
  rfl

/-- A push writes no register but `SP` (46_control.md R210). -/
theorem getReg_pushed_other (s : State) (v : Word) {q : Reg} (h : q ≠ .sp) :
    getReg (pushed s v) q = getReg s q := by
  cases q with
  | sp => exact absurd rfl h
  | _ => rfl

/-- Above address 0 a push does not wrap `SP` (46_control.md R210). -/
theorem toNat_pushed_sp {s : State} (v : Word) (h : 0 < s.core.sp.toNat) :
    (pushed s v).core.sp.toNat + 1 = s.core.sp.toNat := by
  have hone : (1 : Word) ≤ s.core.sp := h
  rw [pushed, BitVec.toNat_sub_of_le hone]
  exact Nat.sub_add_cancel h

/-! ### The calls -/

/-- The push of the return address and the jump are all that a call does (46_control.md R227). -/
theorem calledTo_pushed {s : State} (target : Word) (hwf : Memory.wf s.ram = true) :
    calledTo s (writeBack (pushed s (s.core.pc + 2)) target) target := by
  refine ⟨fun b => readWord_writeWord s.ram _ b _ hwf, rfl, rfl, fun q hq hpc => ?_, rfl, rfl⟩
  rw [getReg_writeBack_other _ _ _ hpc, getReg_pushed_other s _ fun e => hq (by simp [e])]

theorem exec_callL_inRange {s : State} (target : Word) (hwf : Memory.wf s.ram = true)
    (h : s.core.sp.toNat < s.ramCapacity) :
    ∃ t, exec (.callL target) s = .next t ∧ calledTo s t target :=
  ⟨_, callTo_inRange target s h, calledTo_pushed target hwf⟩

theorem exec_callL_outOfRange {s : State} (target : Word) (h : s.ramCapacity ≤ s.core.sp.toNat) :
    exec (.callL target) s = .next (faultTaken s .addressOutOfRangeMemory s.core.sp) := by
  rw [← takeFault_eq_faultTaken]
  exact callTo_outOfRange target s h

/-- With a valid register, `CALL_R` is `CALL_L` to the register's value before the push
(46_control.md R228). -/
theorem exec_callR_some (s : State) {w : Word} {r : Reg} (h : regOfWord w = some r) :
    exec (.callR w) s = exec (.callL (getReg s r)) s :=
  withReg_some s w r _ h

/-! ### One word popped -/

/-- The state after a pop from a stack that is not empty (46_control.md R211). -/
def popped (s : State) : State :=
  { s with core := { s.core with sp := s.core.sp + 1 } }

/-- On an empty stack a pop gives 0 and changes nothing (46_control.md R211). -/
theorem stackPop_empty {s : State} (h : s.core.bp.toNat ≤ s.core.sp.toNat) : stackPop s = .ok (0, s) :=
  if_pos h

section
variable {s : State} (hbp : s.core.sp.toNat < s.core.bp.toNat)
include hbp

/-- Below `BP` a pop does not wrap `SP` (46_control.md R211). -/
theorem toNat_popped_sp : (s.core.sp + 1).toNat = s.core.sp.toNat + 1 := by
  have hlt : s.core.sp.toNat + 1 < 2 ^ 32 := Nat.lt_of_le_of_lt hbp s.core.bp.isLt
  exact Nat.mod_eq_of_lt hlt

theorem stackPop_inRange (h : s.core.sp.toNat + 1 < s.ramCapacity) :
    stackPop s = .ok (readWord s.ram (s.core.sp.toNat + 1), popped s) := by
  rw [← toNat_popped_sp hbp] at h ⊢
  rw [stackPop, if_neg (BitVec.not_le.2 hbp), memRead_inRange s _ h]
  rfl

theorem stackPop_outOfRange (h : s.ramCapacity ≤ s.core.sp.toNat + 1) :
    stackPop s = .error { cause := .addressOutOfRangeMemory, info := s.core.sp + 1 } := by
  rw [← toNat_popped_sp hbp] at h
  rw [stackPop, if_neg (BitVec.not_le.2 hbp), memRead_outOfRange s _ h]

end

/-- A pop after a push gives the word pushed and `SP` as it was, whatever else RAM holds by then
(46_control.md R212). -/
theorem stackPop_pushed {s : State} {v : Word} {ram : Memory} (hpos : 0 < s.core.sp.toNat)
    (hsp : s.core.sp.toNat < s.ramCapacity) (hbp : s.core.sp.toNat ≤ s.core.bp.toNat)
    (hv : readWord ram s.core.sp.toNat = v) :
    stackPop { pushed s v with ram := ram } = .ok (v, { s with ram := ram }) := by
  have hsucc : (pushed s v).core.sp.toNat + 1 = s.core.sp.toNat := toNat_pushed_sp v hpos
  have hundo : popped { pushed s v with ram := ram } = { s with ram := ram } := by
    simp only [popped, pushed, BitVec.sub_add_cancel]
  rw [← hundo, ← hv, ← hsucc]
  rw [← hsucc] at hsp hbp
  exact stackPop_inRange (s := { pushed s v with ram := ram }) hbp hsp

/-! ### The return -/

/-- A pop that answers is a return to the popped word (46_control.md R229). -/
theorem exec_ret_ok {s t : State} {v : Word} (h : stackPop s = .ok (v, t)) :
    exec .ret s = .next (atPc t v) := by
  rw [exec, execRet, h]
  rfl

/-- A pop that fails is the fault of the return (46_control.md R229). -/
theorem exec_ret_error {s : State} {cause : FaultCause} {info : Word}
    (h : stackPop s = .error { cause := cause, info := info }) :
    exec .ret s = .next (faultTaken s cause info) := by
  rw [exec, execRet, h, orFault_error, takeFault_eq_faultTaken]

/-! ### Several words -/

theorem pushAll_cons {v : Word} {vs : List Word} {s t : State} (h : stackPush s v = .ok t) :
    pushAll (v :: vs) s = pushAll vs t := by
  rw [pushAll, h]

/-- The first of several pops, and the others after it. -/
theorem popAll_succ_inv {n : Nat} {ws : List Word} {s t : State} (h : popAll (n + 1) s = .ok (ws, t)) :
    ∃ v s' vs, stackPop s = .ok (v, s') ∧ popAll n s' = .ok (vs, t) ∧ ws = v :: vs := by
  rw [popAll] at h
  split at h
  · cases h
  next v s' hfirst =>
    split at h
    · cases h
    next vs u hrest =>
      cases h
      exact ⟨v, s', vs, hfirst, hrest, rfl⟩

/-- One pop more than `n` is a pop after the `n`. -/
theorem popAll_succ {n : Nat} {ws : List Word} {v : Word} {s t u : State} (hn : popAll n s = .ok (ws, t))
    (hpop : stackPop t = .ok (v, u)) : popAll (n + 1) s = .ok (ws ++ [v], u) := by
  induction n generalizing s ws with
  | zero =>
    cases hn
    simp only [popAll, hpop, List.nil_append]
  | succ n ih =>
    obtain ⟨w, s', ws', hfirst, hrest, rfl⟩ := popAll_succ_inv hn
    rw [popAll, hfirst]
    simp only [ih hrest, List.cons_append]

/-- Words pushed in range come back in reverse order with the state as it was but for RAM, which keeps what
lies above `SP`. The induction is on the list: the word pushed first lies just above the others, and the pop
after theirs finds it there (46_control.md R212). -/
theorem popAll_pushAll (vs : List Word) {s : State} (hwf : Memory.wf s.ram = true)
    (hsp : s.core.sp.toNat < s.ramCapacity) (hlen : vs.length ≤ s.core.sp.toNat)
    (hbp : s.core.sp.toNat ≤ s.core.bp.toNat) :
    ∃ t, pushAll vs s = .ok t ∧ popAll vs.length t = .ok (vs.reverse, { s with ram := t.ram }) ∧
      ∀ a, s.core.sp.toNat < a → readWord t.ram a = readWord s.ram a := by
  induction vs generalizing s with
  | nil => exact ⟨s, rfl, rfl, fun _ _ => rfl⟩
  | cons v vs ih =>
    have hpos : 0 < s.core.sp.toNat := Nat.lt_of_lt_of_le (Nat.succ_pos _) hlen
    have hsucc : (pushed s v).core.sp.toNat + 1 = s.core.sp.toNat := toNat_pushed_sp v hpos
    have hram : ∀ a, readWord (pushed s v).ram a = if a = s.core.sp.toNat then v else readWord s.ram a :=
      fun a => readWord_writeWord s.ram _ a v hwf
    rw [List.length_cons] at hlen
    obtain ⟨t, hpush, hpop, habove⟩ := ih (s := pushed s v) (writeWord_wf s.ram _ v hwf)
      (show _ < s.ramCapacity by omega) (by omega) (show _ ≤ s.core.bp.toNat by omega)
    have hv : readWord t.ram s.core.sp.toNat = v := by rw [habove _ (by omega), hram, if_pos rfl]
    refine ⟨t, (pushAll_cons (stackPush_inRange v hsp)).trans hpush, ?_, fun a ha => ?_⟩
    · rw [List.reverse_cons]
      exact popAll_succ hpop (stackPop_pushed hpos hsp hbp hv)
    · rw [habove a (by omega), hram, if_neg (Nat.ne_of_gt ha)]

/-! ### The obligations -/

/-- Settles O28: each form is a branch on its condition. -/
theorem conditionalJumpToLiteral : Obligations.ConditionalJumpToLiteral := by
  intro s target e he
  obtain ⟨hencode, cond, hcond, hexec⟩ := jumpLForms_spec he s
  rw [hexec, branchTo_atPc, hcond]
  exact ⟨hencode, rfl⟩

/-- Settles O29: each form is a branch to its register's value, once the register is valid. -/
theorem conditionalJumpThroughRegister : Obligations.ConditionalJumpThroughRegister := by
  intro s w e he
  obtain ⟨hencode, cond, hcond, hexec⟩ := jumpRForms_spec he s
  rw [hexec]
  refine ⟨hencode, withReg_outOfRange s _, fun r hr => ?_⟩
  rw [branchThrough_some cond s hr, branchTo_atPc, hcond]

/-- Settles O31: with a valid operand `CALL_R` is a `CALL_L`, which pushes in range or takes the fault. -/
theorem callPushesReturnAddress : Obligations.CallPushesReturnAddress := by
  intro s w hwf
  refine ⟨rfl, rfl, exec_callL_inRange w hwf, exec_callL_outOfRange w, withReg_outOfRange s _,
    fun r hr => ?_⟩
  rw [exec_callR_some s hr]
  exact ⟨exec_callL_inRange (getReg s r) hwf, exec_callL_outOfRange (getReg s r)⟩

/-- Settles O32, from the three outcomes of a pop. -/
theorem retPopsReturnAddress : Obligations.RetPopsReturnAddress :=
  ⟨rfl, fun _ => ⟨fun h => exec_ret_ok (stackPop_empty h),
    fun hbp h => exec_ret_ok (stackPop_inRange hbp h),
    fun hbp h => exec_ret_error (stackPop_outOfRange hbp h)⟩⟩

/-- Settles O33: the pops undo the pushes, and then `SP` is at `BP` again if it was there. -/
theorem stackRoundTrip : Obligations.StackRoundTrip := by
  intro s vs hwf hsp hlen hbp
  obtain ⟨t, hpush, hpop, _⟩ := popAll_pushAll vs hwf hsp hlen hbp
  exact ⟨t, _, hpush, hpop, rfl, rfl, rfl, fun h => stackPop_empty (Nat.le_of_eq (congrArg _ h.symm))⟩

/-- Settles O30: with a valid operand `JMP_R` is a `JMP_L`. -/
theorem unconditionalJump : Obligations.UnconditionalJump :=
  fun s w => ⟨rfl, rfl, exec_jmpL s w, fun r hr => (exec_jmpR_some s hr).trans (exec_jmpL s (getReg s r)),
    withReg_outOfRange s _⟩

end Sys2Proof.Machine

/-! PROOFS of the family 47_load_store.md. First the load and the store at a given address, each with its two
outcomes; then the forms that take an operand from a register, as the form at a given address with the
register's value; then the obligations. -/

namespace Sys2Proof.Machine

open Sys2Proof.Claims

/-! ### The load at a given address -/

section
variable (s : State) {d w : Word} {r : Reg} (hd : regOfWord d = some r)
include hd

theorem exec_ldmRl_some (w : Word) : exec (.ldmRl d w) s = loadInto r w s :=
  withReg_some s d r _ hd

/-- In range, `LDM_RL` writes its destination alone (47_load_store.md R241). -/
theorem exec_ldmRl_inRange (h : w.toNat < s.ramCapacity) :
    ∃ t, exec (.ldmRl d w) s = .next t ∧ wroteReg s t 3 r (readWord s.ram w.toNat) :=
  ⟨_, (exec_ldmRl_some s hd w).trans (loadInto_inRange r w s h), wroteReg_writeBack_setReg s 3 r _⟩

theorem exec_ldmRl_outOfRange (h : s.ramCapacity ≤ w.toNat) :
    exec (.ldmRl d w) s = .next (faultTaken s .addressOutOfRangeMemory w) := by
  rw [exec_ldmRl_some s hd, loadInto_outOfRange r w s h, takeFault_eq_faultTaken]

/-- With valid operands, `LDM_RR` is `LDM_RL` at the register's value (47_load_store.md R242). -/
theorem exec_ldmRr_some {q : Reg} (hw : regOfWord w = some q) :
    exec (.ldmRr d w) s = exec (.ldmRl d (getReg s q)) s :=
  (withRegs_some s d w r q _ hd hw).trans (exec_ldmRl_some s hd (getReg s q)).symm

end

/-! ### The store at a given address -/

/-- What an instruction does that stores one word and ends (30_encoding.md R104). -/
theorem storedWord_writeBack_writeWord (s : State) (words : Word) (a : Nat) (v : Word)
    (hwf : Memory.wf s.ram = true) :
    storedWord s (writeBack { s with ram := writeWord s.ram a v } (s.core.pc + words)) words a v := by
  refine ⟨fun b => readWord_writeWord s.ram a b v hwf, rfl, fun q _ hpc => ?_, rfl, rfl⟩
  rw [getReg_writeBack_other _ _ _ hpc]
  cases q <;> rfl

/-- In range, `SVM_LL` stores its literal and changes nothing else (47_load_store.md R245). -/
theorem exec_svmLl_inRange {s : State} {w : Word} (v : Word) (hwf : Memory.wf s.ram = true)
    (h : w.toNat < s.ramCapacity) :
    ∃ t, exec (.svmLl w v) s = .next t ∧ storedWord s t 3 w.toNat v :=
  ⟨_, storeAt_inRange w v s h, storedWord_writeBack_writeWord s 3 w.toNat v hwf⟩

theorem exec_svmLl_outOfRange {s : State} {w : Word} (v : Word) (h : s.ramCapacity ≤ w.toNat) :
    exec (.svmLl w v) s = .next (faultTaken s .addressOutOfRangeMemory w) := by
  rw [← takeFault_eq_faultTaken]
  exact storeAt_outOfRange w v s h

/-! ### The stores that take an operand from a register -/

/-- With a valid address register, `SVM_RL` is `SVM_LL` at its value (47_load_store.md R243). -/
theorem exec_svmRl_some (s : State) {w : Word} (v : Word) {r : Reg} (hw : regOfWord w = some r) :
    exec (.svmRl w v) s = exec (.svmLl (getReg s r) v) s :=
  withReg_some s w r _ hw

/-- With a valid value register, `SVM_LR` is `SVM_LL` of its value (47_load_store.md R246). -/
theorem exec_svmLr_some (s : State) (w : Word) {v : Word} {q : Reg} (hv : regOfWord v = some q) :
    exec (.svmLr w v) s = exec (.svmLl w (getReg s q)) s :=
  withReg_some s v q _ hv

/-- With two valid registers, `SVM_RR` is `SVM_LL` at the one's value of the other's
(47_load_store.md R244). -/
theorem exec_svmRr_some (s : State) {w v : Word} {r q : Reg} (hw : regOfWord w = some r)
    (hv : regOfWord v = some q) :
    exec (.svmRr w v) s = exec (.svmLl (getReg s r) (getReg s q)) s :=
  withRegs_some s w v r q _ hw hv

/-! ### The obligations -/

/-- Settles O34: with valid operands `LDM_RR` is an `LDM_RL`, which loads in range or takes the fault. -/
theorem loadReadsRam : Obligations.LoadReadsRam := by
  intro s d w
  refine ⟨rfl, rfl, fun hd => ⟨withReg_outOfRange s _ hd, withRegs_outOfRange_left s w _ hd⟩,
    fun r hd => ⟨exec_ldmRl_inRange s hd, exec_ldmRl_outOfRange s hd, fun hw => ?_, fun q hw => ?_⟩⟩
  · exact (withReg_some s d r _ hd).trans (withReg_outOfRange s _ hw)
  · rw [exec_ldmRr_some s hd hw]
    exact ⟨exec_ldmRl_inRange s hd, exec_ldmRl_outOfRange s hd⟩

/-- Settles O35: with a valid operand `SVM_RL` is an `SVM_LL`, which stores in range or takes the fault. -/
theorem storeLiteralWritesRam : Obligations.StoreLiteralWritesRam := by
  intro s w v hwf
  refine ⟨rfl, rfl, exec_svmLl_inRange v hwf, exec_svmLl_outOfRange v, withReg_outOfRange s _,
    fun r hw => ?_⟩
  rw [exec_svmRl_some s v hw]
  exact ⟨exec_svmLl_inRange v hwf, exec_svmLl_outOfRange v⟩

/-- Settles O36: with valid operands both forms are an `SVM_LL` of the register's value, and the first
operand that is not valid faults before the address is checked. -/
theorem storeRegisterWritesRam : Obligations.StoreRegisterWritesRam := by
  intro s w v hwf
  refine ⟨rfl, rfl, withRegs_outOfRange_left s v _,
    fun hv => ⟨withReg_outOfRange s _ hv, fun hw => withRegs_outOfRange_right s _ hw hv⟩, fun q hv => ?_⟩
  rw [exec_svmLr_some s w hv]
  refine ⟨exec_svmLl_inRange _ hwf, exec_svmLl_outOfRange _, fun r hw => ?_⟩
  rw [exec_svmRr_some s hw hv]
  exact ⟨exec_svmLl_inRange _ hwf, exec_svmLl_outOfRange _⟩

end Sys2Proof.Machine

/-! PROOFS of the families 60_exceptions.md and 70_reset_and_hazards.md. First what an instruction and a
turn do to the other Cores and to whose turn it is; then what the host does to a Core, which records of faults
a step keeps and what it refuses; then the turns of one tick; then the obligations. -/

namespace Sys2Proof.Machine

open Sys2Proof.Claims

/-! ### Whose turn it is -/

/-- An effect leaves every other Core and the CPU's alive flag, or it is `HALT`'s (60_exceptions.md R285,
R287). -/
theorem Effect.others {i : Instr} {s t : State} (h : Effect i s t) :
    (t.coresBefore = s.coresBefore ∧ t.coresAfter = s.coresAfter ∧ t.cpuAlive = s.cpuAlive) ∨
      i = .halt ∧ ∃ pc, t = writeBack (callHalt s) pc := by
  cases h with
  | halt pc hi => exact .inr ⟨hi, pc, rfl⟩
  | interrupt vector =>
    obtain ⟨_, _, _, e⟩ := callInterrupt_eq s vector
    exact .inl (by simp [e])
  | _ => exact .inl (by simp)

theorem Effect.turnOf {i : Instr} {s t : State} (h : Effect i s t) : turnOf t = turnOf s := by
  rcases h.others with ⟨hbefore, _⟩ | ⟨_, pc, rfl⟩
  · exact congrArg List.length hbefore
  · exact List.length_map killCore

/-- Every answer of a Core's turn is a next state: the same one, or the one after a fault of the fetch, or one
that an effect of an instruction gives (30_encoding.md R101). -/
theorem coreStep_answers (s : State) :
    ∃ t, coreStep s = .next t ∧ (t = s ∨ (∃ f, t = takeFault s f) ∨ ∃ i, Effect i s t) := by
  rcases coreStep_cases s with ⟨_, e⟩ | ⟨_, ⟨f, _, e⟩ | ⟨i, _, e⟩⟩
  · exact ⟨s, e, .inl rfl⟩
  · exact ⟨takeFault s f, e, .inr (.inl ⟨f, rfl⟩)⟩
  · obtain ⟨t, ht, effect⟩ := exec_answers i s
    exact ⟨t, e.trans ht, .inr (.inr ⟨i, effect⟩)⟩

theorem coreStep_next_cases {s t : State} (h : coreStep s = .next t) :
    t = s ∨ (∃ f, t = takeFault s f) ∨ ∃ i, Effect i s t := by
  obtain ⟨u, hu, hcases⟩ := coreStep_answers s
  cases hu.symm.trans h
  exact hcases

theorem coreTurn_of_coreStep {s t : State} (h : coreStep s = .next t) :
    coreTurn s = .next (endTurn t) := by
  rw [coreTurn, h]; rfl

/-- A Core's turn is never refused (60_exceptions.md R262, R266; log 11). -/
theorem coreTurn_answers (s : State) : ∃ t, coreTurn s = .next t := by
  obtain ⟨t, ht, _⟩ := coreStep_answers s
  exact ⟨endTurn t, coreTurn_of_coreStep ht⟩

theorem coreStep_turnOf {s t : State} (h : coreStep s = .next t) : turnOf t = turnOf s := by
  rcases coreStep_next_cases h with rfl | ⟨f, rfl⟩ | ⟨i, effect⟩
  · rfl
  · rfl
  · exact effect.turnOf

theorem coreStep_fixedPart {s t : State} (h : coreStep s = .next t) : fixedPart t = fixedPart s :=
  (fixedPart_endTurn t).symm.trans (coreTurn_fixedPart (coreTurn_of_coreStep h))

theorem nCores_of_fixedPart {s t : State} (h : fixedPart t = fixedPart s) : nCores t = nCores s := by
  obtain ⟨_, _, _, hcount, _⟩ := sameConfiguration_of_fixedPart h
  exact hcount

theorem configOk_of_fixedPart {s t : State} (h : fixedPart t = fixedPart s) : configOk t = configOk s := by
  obtain ⟨hcap, hdisk, _⟩ := sameConfiguration_of_fixedPart h
  rw [configOk, configOk, hcap, hdisk]

theorem coreStep_nCores {s t : State} (h : coreStep s = .next t) : nCores t = nCores s :=
  nCores_of_fixedPart (coreStep_fixedPart h)

theorem coreStep_configOk {s t : State} (h : coreStep s = .next t) : configOk t = configOk s :=
  configOk_of_fixedPart (coreStep_fixedPart h)

/-- The Core whose turn it is stands between those before it and those after it (log 3). -/
theorem nCores_eq_turnOf_add (s : State) : nCores s = turnOf s + 1 + s.coresAfter.length := by
  simp [nCores, coreList, turnOf]; omega

/-- The turn passes to the next Core, and from the last to Core 0 (60_exceptions.md R283). -/
theorem turnOf_endTurn (s : State) :
    turnOf (endTurn s) = if turnOf s + 1 = nCores s then 0 else turnOf s + 1 := by
  rw [nCores_eq_turnOf_add]
  unfold endTurn
  cases hafter : s.coresAfter with
  | cons c rest => simp [turnOf]
  | nil => cases hbefore : s.coresBefore <;> simp [turnOf, hbefore]

/-! ### What the host does to a Core -/

/-- A step between ticks with a host action pending is that action (00_scope.md R9; log 2). -/
theorem step_hostAction {s : State} {a : HostAction} {later : List HostAction} (hc : configOk s = true)
    (hb : s.coresBefore = []) (hh : s.host = a :: later) :
    step s = hostStep a { s with host := later } := by
  rw [step_eq s hc, nextAgent, hb, hh]

/-- A Core marked alive (60_exceptions.md R286). -/
def reviveCore (c : CoreState) : CoreState := { c with alive := true }

/-- What `bootup` does apart from marking Core 0 alive (70_reset_and_hazards.md R303). -/
def bootloaded (s : State) : State :=
  { s with
    ram := writeWords s.ram 0 (s.disk.take (bootLength s.disk.length))
    cpuAlive := true
    booted := true }

/-- All that `bootup` can do (70_reset_and_hazards.md R303, R306). -/
theorem bootup_cases (s : State) :
    (s.booted = true ∧ bootup s = .refused .secondBootup) ∨
      (s.booted = false ∧ bootup s = .next (modifyCore (bootloaded s) 0 reviveCore)) := by
  cases h : s.booted with
  | true => exact .inl ⟨rfl, by simp [bootup, h]⟩
  | false => exact .inr ⟨rfl, by rw [bootup, h]; rfl⟩

/-- All that `activate(i)` can do (60_exceptions.md R286; log 14). -/
theorem activate_cases (i : Nat) (s : State) :
    (nCores s ≤ i ∧ activate i s = .refused .noSuchCore) ∨
      (i < nCores s ∧ activate i s = .next (modifyCore s i reviveCore)) := by
  rcases Nat.lt_or_ge i (nCores s) with h | h
  · exact .inr ⟨h, if_pos h⟩
  · exact .inl ⟨h, if_neg (Nat.not_lt.2 h)⟩

/-- All that a test bench's load can do (40_alu_unit.md R138, R139; logs 13, 14). -/
theorem hostLoad_cases (i : Nat) (load : CoreState → Except FaultSignal CoreState) (s : State) :
    (nCores s ≤ i ∧ hostLoad i load s = .refused .noSuchCore) ∨
      ∃ c, (coreList s)[i]? = some c ∧
        ((∃ c', load c = .ok c' ∧
            hostLoad i load s = .next { modifyCore s i (fun _ => c') with hostReport := .done }) ∨
          ∃ f, load c = .error f ∧
            hostLoad i load s = .next { s with hostReport := .divideByZero f.info }) := by
  cases hc : (coreList s)[i]? with
  | none => exact .inl ⟨List.getElem?_eq_none_iff.1 hc, by simp only [hostLoad, hc]⟩
  | some c =>
    refine .inr ⟨c, rfl, ?_⟩
    cases hl : load c with
    | ok c' => exact .inl ⟨c', rfl, by simp only [hostLoad, hc, hl]⟩
    | error f => exact .inr ⟨f, rfl, hostLoad_error load hc hl⟩

/-- Between ticks Core 0 is the Core whose turn it is (log 3). -/
theorem modifyCore_zero {s : State} (g : CoreState → CoreState) (hb : s.coresBefore = []) :
    modifyCore s 0 g = { s with core := g s.core } := by
  simp [modifyCore, hb]

/-- A change of a Core between ticks changes neither that none has had its turn yet nor anything but the
Cores (log 3). -/
theorem modifyCore_betweenTicks {s : State} (i : Nat) (g : CoreState → CoreState)
    (hb : s.coresBefore = []) :
    ∃ core after, modifyCore s i g = { s with core := core, coresAfter := after } := by
  obtain ⟨before, core, after, e⟩ := modifyCore_eq s i g
  have hturn : turnOf (modifyCore s i g) = 0 := by rw [turnOf_modifyCore, turnOf, hb]; rfl
  rw [e] at hturn
  have hbefore : before = [] := List.eq_nil_of_length_eq_zero hturn
  exact ⟨core, after, by rw [e, hbefore, hb]⟩

/-- The words the bootloader copy leaves in RAM (70_reset_and_hazards.md R303). -/
theorem readWord_bootloaded {s : State} (h : Memory.wf s.ram = true) (k : Nat) :
    readWord (bootloaded s).ram k =
      if k < 100 then (s.disk[k]?).getD (readWord s.ram k) else readWord s.ram k := by
  rw [bootloaded, readWord_writeWords _ _ _ _ h, if_pos (Nat.zero_le k), Nat.sub_zero,
    List.getElem?_take]
  by_cases hk : k < 100
  · by_cases hlen : k < s.disk.length <;> simp [bootLength, hk, hlen]
  · simp [bootLength, hk]

/-! ### Fault records -/

/-- The fault record of `c`, if it has one, is that of `d` (60_exceptions.md R263). -/
def RecordKept (c d : CoreState) : Prop :=
  ∀ f, c.fault = some f → d.fault = some f

theorem recordKept_of_fault_eq {c d : CoreState} (h : d.fault = c.fault) : RecordKept c d :=
  fun _ hf => h.trans hf

/-- The two core lists are equally long, and no record of the first is lost in the second. -/
def RecordsKept (cs ds : List CoreState) : Prop :=
  List.Forall₂ RecordKept cs ds

theorem RecordsKept.refl (cs : List CoreState) : RecordsKept cs cs :=
  List.forall₂_same.2 fun _ _ => recordKept_of_fault_eq rfl

theorem RecordsKept.getElem? {cs ds : List CoreState} (h : RecordsKept cs ds) {i : Nat} {c : CoreState}
    (hc : cs[i]? = some c) : ∃ d, ds[i]? = some d ∧ RecordKept c d := by
  obtain ⟨hlen, hkept⟩ := List.forall₂_iff_get.1 h
  obtain ⟨hi, rfl⟩ := List.getElem?_eq_some_iff.1 hc
  exact ⟨ds[i]'(hlen ▸ hi), List.getElem?_eq_getElem _, hkept i hi _⟩

theorem recordsKept_killCore (cs : List CoreState) : RecordsKept cs (cs.map killCore) :=
  List.forall₂_map_right_iff.2 (List.forall₂_same.2 fun c _ => recordKept_of_fault_eq (killCore_fault c))

theorem recordsKept_modify {cs : List CoreState} {i : Nat} {g : CoreState → CoreState}
    (h : ∀ c, cs[i]? = some c → RecordKept c (g c)) : RecordsKept cs (cs.modify i g) := by
  refine List.forall₂_iff_get.2 ⟨(List.length_modify g cs i).symm, fun j hj _ => ?_⟩
  simp only [List.get_eq_getElem, List.getElem_modify]
  split
  · rename_i hij
    exact h _ (hij ▸ List.getElem?_eq_getElem hj)
  · exact recordKept_of_fault_eq rfl

theorem recordsKept_coreList {s t : State} (hbefore : RecordsKept s.coresBefore t.coresBefore)
    (hcore : RecordKept s.core t.core) (hafter : RecordsKept s.coresAfter t.coresAfter) :
    RecordsKept (coreList s) (coreList t) :=
  List.rel_append hbefore (.cons hcore hafter)

/-- A second fault keeps the record of the first (60_exceptions.md R263). -/
theorem recordKept_takeFault (s : State) (f : FaultSignal) : RecordKept s.core (takeFault s f).core := by
  intro old hold
  rw [takeFault_core_fault, hold]
  rfl

theorem Effect.core_recordKept {i : Instr} {s t : State} (h : Effect i s t) :
    RecordKept s.core t.core := by
  cases h with
  | fault f => exact recordKept_takeFault s f
  | interrupt vector =>
    obtain ⟨_, _, _, e⟩ := callInterrupt_eq s vector
    exact recordKept_of_fault_eq (by rw [writeBack_core_fault, e])
  | _ => exact recordKept_of_fault_eq (by simp)

theorem Effect.recordsKept {i : Instr} {s t : State} (h : Effect i s t) :
    RecordsKept (coreList s) (coreList t) := by
  have hcore := h.core_recordKept
  rcases h.others with ⟨hbefore, hafter, _⟩ | ⟨_, pc, rfl⟩
  · exact recordsKept_coreList (hbefore ▸ .refl _) hcore (hafter ▸ .refl _)
  · exact recordsKept_coreList (recordsKept_killCore _) hcore (recordsKept_killCore _)

theorem coreTurn_recordsKept {s t : State} (h : coreTurn s = .next t) :
    RecordsKept (coreList s) (coreList t) := by
  obtain ⟨u, hu, rfl⟩ := thenEndTurn_next h
  rw [coreList_endTurn]
  rcases coreStep_next_cases hu with rfl | ⟨f, rfl⟩ | ⟨i, effect⟩
  · exact .refl _
  · exact recordsKept_coreList (.refl _) (recordKept_takeFault s f) (.refl _)
  · exact effect.recordsKept

theorem recordsKept_modifyCore {s : State} {i : Nat} {g : CoreState → CoreState}
    (h : ∀ c, (coreList s)[i]? = some c → RecordKept c (g c)) :
    RecordsKept (coreList s) (coreList (modifyCore s i g)) := by
  rw [coreList_modifyCore]
  exact recordsKept_modify h

theorem bootup_recordsKept {s t : State} (h : bootup s = .next t) :
    RecordsKept (coreList s) (coreList t) := by
  rcases bootup_cases s with ⟨_, e⟩ | ⟨_, e⟩ <;> cases e.symm.trans h
  exact recordsKept_modifyCore (s := bootloaded s) fun _ _ => recordKept_of_fault_eq rfl

theorem activate_recordsKept {i : Nat} {s t : State} (h : activate i s = .next t) :
    RecordsKept (coreList s) (coreList t) := by
  rcases activate_cases i s with ⟨_, e⟩ | ⟨_, e⟩ <;> cases e.symm.trans h
  exact recordsKept_modifyCore fun _ _ => recordKept_of_fault_eq rfl

/-- A load writes flags and slots only (40_alu_unit.md R136, R137). -/
theorem loadOne_fault {c c' : CoreState} {a : Word} (h : loadOne c a = .ok c') : c'.fault = c.fault := by
  rw [loadOne_eq] at h
  cases h
  rfl

theorem loadTwo_fault {c c' : CoreState} {a b : Word} (h : loadTwo c a b = .ok c') :
    c'.fault = c.fault := by
  rcases loadTwo_cases c a b with ⟨_, e⟩ | ⟨_, e⟩ <;> cases e.symm.trans h
  rfl

theorem hostLoad_recordsKept {i : Nat} {load : CoreState → Except FaultSignal CoreState} {s t : State}
    (hload : ∀ c c', load c = .ok c' → c'.fault = c.fault) (h : hostLoad i load s = .next t) :
    RecordsKept (coreList s) (coreList t) := by
  rcases hostLoad_cases i load s with ⟨_, e⟩ | ⟨c, hc, ⟨c', hc', e⟩ | ⟨f, _, e⟩⟩ <;>
    cases e.symm.trans h
  · refine recordsKept_modifyCore (g := fun _ => c') fun d hd => ?_
    cases hc.symm.trans hd
    exact recordKept_of_fault_eq (hload c c' hc')
  · exact .refl _

theorem coreList_busRead (b : BusId) (addr : Word) (s : State) :
    coreList (busRead b addr s) = coreList s := by
  cases b <;> rfl

theorem coreList_busWrite (b : BusId) (addr v : Word) (s : State) :
    coreList (busWrite b addr v s) = coreList s := by
  cases b <;> rfl

theorem hostStep_recordsKept {a : HostAction} {s t : State} (h : hostStep a s = .next t) :
    RecordsKept (coreList s) (coreList t) := by
  cases a with
  | bootup => exact bootup_recordsKept h
  | tick => exact coreTurn_recordsKept h
  | activate i => exact activate_recordsKept h
  | busRead b addr => cases h; exact coreList_busRead b addr s ▸ .refl _
  | busWrite b addr v => cases h; exact coreList_busWrite b addr v s ▸ .refl _
  | aluLoad1 i a => exact hostLoad_recordsKept (fun _ _ => loadOne_fault) h
  | aluLoad2 i a b => exact hostLoad_recordsKept (fun _ _ => loadTwo_fault) h

/-- No step, a Core's turn or a host action, loses a fault record (60_exceptions.md R263). -/
theorem step_recordsKept {s t : State} (h : step s = .next t) : RecordsKept (coreList s) (coreList t) := by
  obtain ⟨_, hagent⟩ := step_next h
  rcases nextAgent_cases s with ⟨a, rest, _, _, e⟩ | ⟨_, e⟩
  · exact hostStep_recordsKept (s := { s with host := rest }) (e.symm.trans hagent)
  · exact coreTurn_recordsKept (e.symm.trans hagent)

/-! ### What is refused -/

theorem coreTurn_ne_refused (s : State) (r : Refusal) : coreTurn s ≠ .refused r := by
  obtain ⟨t, ht⟩ := coreTurn_answers s
  simp [ht]

theorem bootup_refused_iff (s : State) (r : Refusal) :
    bootup s = .refused r ↔ s.booted = true ∧ r = .secondBootup := by
  rcases bootup_cases s with ⟨h, e⟩ | ⟨h, e⟩ <;> simp [e, h, eq_comm]

theorem activate_refused_iff (i : Nat) (s : State) (r : Refusal) :
    activate i s = .refused r ↔ nCores s ≤ i ∧ r = .noSuchCore := by
  rcases activate_cases i s with ⟨h, e⟩ | ⟨h, e⟩
  · simp [e, h, eq_comm]
  · simp [e, Nat.not_le.2 h]

theorem hostLoad_refused_iff (i : Nat) (load : CoreState → Except FaultSignal CoreState) (s : State)
    (r : Refusal) : hostLoad i load s = .refused r ↔ nCores s ≤ i ∧ r = .noSuchCore := by
  rcases hostLoad_cases i load s with ⟨h, e⟩ | ⟨c, hc, h⟩
  · simp [e, h, eq_comm]
  · have hi : ¬nCores s ≤ i := Nat.not_le.2 (List.getElem?_eq_some_iff.1 hc).1
    rcases h with ⟨c', _, e⟩ | ⟨f, _, e⟩ <;> simp [e, hi]

/-- In `s` the host action is refused for the reason `r` (70_reset_and_hazards.md R306, 00_scope.md R9;
log 14). -/
def HostRefuses (s : State) (r : Refusal) : HostAction → Prop
  | .bootup => s.booted = true ∧ r = .secondBootup
  | .activate i | .aluLoad1 i _ | .aluLoad2 i _ _ => nCores s ≤ i ∧ r = .noSuchCore
  | .tick | .busRead .. | .busWrite .. => False

theorem hostStep_refused_iff (a : HostAction) (s : State) (r : Refusal) :
    hostStep a s = .refused r ↔ HostRefuses s r a := by
  cases a with
  | bootup => exact bootup_refused_iff s r
  | tick => exact iff_false_intro (coreTurn_ne_refused s r)
  | activate i => exact activate_refused_iff i s r
  | busRead | busWrite => exact iff_false_intro nofun
  | aluLoad1 i a => exact hostLoad_refused_iff i (fun c => loadOne c a) s r
  | aluLoad2 i a b => exact hostLoad_refused_iff i (fun c => loadTwo c a b) s r

/-- All that a step refuses: an invalid configuration, or the host's action between ticks. -/
theorem step_refused_iff (s : State) (r : Refusal) :
    step s = .refused r ↔ (configOk s = false ∧ r = .invalidConfiguration) ∨
      (configOk s = true ∧ s.coresBefore = [] ∧ ∃ a, s.host.head? = some a ∧ HostRefuses s r a) := by
  cases hc : configOk s with
  | false => simp [step, hc, eq_comm]
  | true =>
    rw [step_eq s hc]
    rcases nextAgent_cases s with ⟨a, rest, hb, hh, e⟩ | ⟨hturn, e⟩
    · have hrefuses : HostRefuses { s with host := rest } r a ↔ HostRefuses s r a := by cases a <;> rfl
      rw [e, hostStep_refused_iff, hrefuses]
      simp [hb, hh]
    · have hnone : s.coresBefore = [] → s.host = [] := hturn.resolve_left ∘ not_not_intro
      simp +contextual [e, coreTurn_ne_refused, hnone]

theorem not_hostRefuses_of_ne {s : State} {r : Refusal} (hboot : r ≠ .secondBootup)
    (hcore : r ≠ .noSuchCore) (a : HostAction) : ¬HostRefuses s r a := by
  cases a <;> simp [HostRefuses, hboot, hcore]

/-- A pending second `bootup` is what is refused as one. -/
theorem pending_secondBootup_iff (s : State) :
    (∃ a, s.host.head? = some a ∧ HostRefuses s .secondBootup a) ↔
      s.booted = true ∧ s.host.head? = some .bootup := by
  have hrefuses : ∀ a, HostRefuses s .secondBootup a ↔ s.booted = true ∧ a = .bootup := fun a => by
    cases a <;> simp [HostRefuses]
  simp [hrefuses, and_comm]

/-- A pending action on a Core that does not exist is what is refused as one. -/
theorem pending_noSuchCore_iff (s : State) :
    (∃ a, s.host.head? = some a ∧ HostRefuses s .noSuchCore a) ↔
      ∃ i, nCores s ≤ i ∧ (s.host.head? = some (.activate i) ∨
        (∃ a, s.host.head? = some (.aluLoad1 i a)) ∨ ∃ a b, s.host.head? = some (.aluLoad2 i a b)) := by
  cases s.host.head? with
  | none => simp
  | some a => cases a <;> simp [HostRefuses]

/-! ### The turns of one tick -/

/-- To give the turn to the Core that has it changes nothing (log 3). -/
theorem focus_turnOf (s : State) : focus s (turnOf s) = s := by
  have hcore : (coreList s)[turnOf s]? = some s.core := by simp [coreList, turnOf]
  rw [focus, hcore]
  simp [coreList, turnOf]

theorem turnOf_lt_nCores (s : State) : turnOf s < nCores s := by
  have := nCores_eq_turnOf_add s
  omega

/-- States that differ in nothing but whose turn it is are equal once the same Core is given the turn. -/
theorem OnlyTurnPassed.focus_eq {s t : State} (h : OnlyTurnPassed s t) {i : Nat} (hi : i < nCores s) :
    focus t i = focus s i := by
  obtain ⟨hcores, hrest⟩ := h
  have hc : (coreList s)[i]? = some (coreList s)[i] := List.getElem?_eq_getElem hi
  rw [focus, focus, hcores, hc, hrest]

theorem OnlyTurnPassed.nCores_eq {s t : State} (h : OnlyTurnPassed s t) : nCores t = nCores s := by
  obtain ⟨hcores, _⟩ := h
  exact congrArg List.length hcores

theorem OnlyTurnPassed.eq_focus {s t : State} (h : OnlyTurnPassed s t) : t = focus s (turnOf t) :=
  (focus_turnOf t).symm.trans (h.focus_eq (h.nCores_eq ▸ turnOf_lt_nCores t))

/-- The end of a turn gives the turn to the next Core, or after the last to Core 0 (60_exceptions.md R283). -/
theorem endTurn_eq_focus (s : State) :
    endTurn s = focus s (if turnOf s + 1 = nCores s then 0 else turnOf s + 1) := by
  rw [← turnOf_endTurn]
  exact (onlyTurnPassed_endTurn s).eq_focus

theorem onlyTurnPassed_focus (s : State) (i : Nat) : OnlyTurnPassed s (focus s i) := by
  unfold focus
  cases hc : (coreList s)[i]? with
  | none => exact .refl s
  | some c =>
    obtain ⟨hi, rfl⟩ := List.getElem?_eq_some_iff.1 hc
    exact ⟨by simp [coreList], rfl⟩

/-- One turn of the spec's loop (60_exceptions.md R283). -/
theorem tickLoop_succ {n i : Nat} {s t : State} (h : coreStep (focus s i) = .next t) :
    tickLoop (n + 1) i s = tickLoop n (i + 1) t := by
  rw [tickLoop, h]

/-- When some Core had its turn in this tick, a step is a Core's turn (log 3). -/
theorem step_insideTick {s : State} (hc : configOk s = true) (h : 0 < turnOf s) : step s = coreTurn s :=
  step_coreTurn hc (.inl (List.length_pos_iff.1 h))

/-- Running the turns of the Cores after the one whose turn ends is the rest of the spec's loop, after which
the turn is Core 0's. -/
theorem run_endTurn (n : Nat) {s : State} (hc : configOk s = true) (hn : turnOf s + 1 + n = nCores s) :
    ∃ t, tickLoop n (turnOf s + 1) s = .next t ∧
      Sys2Proof.core.run n (endTurn s) = .next (focus t 0) := by
  induction n generalizing s with
  | zero =>
    have hend : endTurn s = focus s 0 := by rw [endTurn_eq_focus, if_pos hn]
    exact ⟨s, rfl, congrArg _ hend⟩
  | succ n ih =>
    have hnotLast : turnOf s + 1 ≠ nCores s := by omega
    have hend : endTurn s = focus s (turnOf s + 1) := by rw [endTurn_eq_focus, if_neg hnotLast]
    have hturn : turnOf (endTurn s) = turnOf s + 1 := by rw [turnOf_endTurn, if_neg hnotLast]
    have hcount : nCores (endTurn s) = nCores s := (onlyTurnPassed_endTurn s).nCores_eq
    have hcend : configOk (endTurn s) = true := (configOk_of_fixedPart (fixedPart_endTurn s)).trans hc
    obtain ⟨t, ht, _⟩ := coreStep_answers (endTurn s)
    have hturnt : turnOf t = turnOf s + 1 := (coreStep_turnOf ht).trans hturn
    have hstep : step (endTurn s) = .next (endTurn t) :=
      (step_insideTick hcend (by omega)).trans (coreTurn_of_coreStep ht)
    obtain ⟨u, hloop, hrun⟩ := ih ((coreStep_configOk ht).trans hcend)
      (by rw [hturnt, coreStep_nCores ht, hcount]; omega)
    refine ⟨u, ?_, (run_succ_of_step hstep n).trans hrun⟩
    rw [tickLoop_succ (hend ▸ ht), ← hturnt]
    exact hloop

theorem coreStep_dead {s : State} (h : s.cpuAlive = false) : coreStep s = .next s := by
  simp [coreStep, h]

/-- With the CPU dead the loop of a tick would change nothing but the turn (decision D30). -/
theorem tickLoop_dead (n i : Nat) {s t : State} (hdead : s.cpuAlive = false)
    (h : tickLoop n i s = .next t) : OnlyTurnPassed s t := by
  induction n generalizing i s with
  | zero => cases h; exact .refl _
  | succ n ih =>
    have hpassed := onlyTurnPassed_focus s i
    have hdead' : (focus s i).cpuAlive = false := by
      obtain ⟨_, hrest⟩ := hpassed
      rw [hrest]
      exact hdead
    rw [tickLoop_succ (coreStep_dead hdead')] at h
    exact hpassed.trans (ih (i + 1) hdead' h)

/-- The spec's tick, from the state at its start, is its loop and the turn back at Core 0, whether the CPU is
alive or dead (60_exceptions.md R283). -/
theorem tick_eq_of_tickLoop {s t : State} (hturn : turnOf s = 0) (h : tickLoop (nCores s) 0 s = .next t) :
    tick s = .next (focus t 0) := by
  cases hcpu : s.cpuAlive with
  | true => simp [tick, hcpu, h]
  | false =>
    have hpassed := tickLoop_dead _ _ hcpu h
    have hstart : focus t 0 = s := by
      rw [hpassed.focus_eq (hturn ▸ turnOf_lt_nCores s), ← hturn, focus_turnOf]
    rw [tick, if_pos hcpu, hstart]

/-- From a step that is Core 0's turn, as many steps as there are Cores are a tick (60_exceptions.md R283). -/
theorem run_nCores_eq_tick {s s' : State} (hc : configOk s' = true) (hturn : turnOf s' = 0)
    (hstep : step s = coreTurn s') : Sys2Proof.core.run (nCores s') s = tick s' := by
  obtain ⟨u, hu, _⟩ := coreStep_answers s'
  have hturnu : turnOf u = 0 := (coreStep_turnOf hu).trans hturn
  have hcount : nCores s' = s'.coresAfter.length + 1 := by rw [nCores_eq_turnOf_add, hturn]; omega
  obtain ⟨t, hloop, hrun⟩ := run_endTurn s'.coresAfter.length
    ((coreStep_configOk hu).trans hc) (by rw [hturnu, coreStep_nCores hu, hcount]; omega)
  have hfirst : coreStep (focus s' 0) = .next u := by rw [← hturn, focus_turnOf, hu]
  have htick : tickLoop (nCores s') 0 s' = .next t := by
    rw [hcount, tickLoop_succ hfirst, ← hloop, hturnu]
  rw [tick_eq_of_tickLoop hturn htick, hcount]
  exact (run_succ_of_step (hstep.trans (coreTurn_of_coreStep hu)) _).trans hrun

/-! ### The obligations -/

/-- Settles O37, from the effects an instruction can have. -/
theorem everyInstructionAnswersNext : Obligations.EveryInstructionAnswersNext := by
  intro i s
  obtain ⟨t, ht, _⟩ := exec_answers i s
  exact ⟨t, ht⟩

/-- Settles O40: only the effect of `HALT` reaches the other Cores. -/
theorem otherCoresAreUntouched : Obligations.OtherCoresAreUntouched := by
  intro i s t hi h
  rcases (effect_of_exec h).others with hkept | ⟨hhalt, _⟩
  · exact hkept
  · exact absurd hhalt hi

/-- Settles O43: a step's core list keeps the records of the one before, Core by Core. -/
theorem faultRecordIsSticky : Obligations.FaultRecordIsSticky := by
  intro s t i c f h hc hf
  obtain ⟨c', hc', hkept⟩ := (step_recordsKept h).getElem? hc
  exact ⟨c', hc', hkept f hf⟩

/-- Settles O47: the Core's turn keeps whose turn it is, and the end of the turn passes it. -/
theorem turnPassesInCoreListOrder : Obligations.TurnPassesInCoreListOrder := by
  intro s t h
  have hcount := nCores_of_fixedPart (coreTurn_fixedPart h)
  obtain ⟨u, hu, rfl⟩ := thenEndTurn_next h
  refine ⟨hcount, ?_⟩
  rw [turnOf_endTurn, coreStep_turnOf hu, coreStep_nCores hu]

/-- Settles O48: the first step is the loop's first turn, and `run_endTurn` is the rest of it. -/
theorem stepsOfAllCoresAreOneTick : Obligations.StepsOfAllCoresAreOneTick := by
  intro s s' hc hb hstarts
  obtain ⟨hstep, host, rfl⟩ := step_turnStarts hc hstarts
  exact run_nCores_eq_tick (s' := { s with host := host }) hc (congrArg List.length hb) hstep

/-- Settles O52: the action changes the Core in its place. -/
theorem activateSetsAliveFlag : Obligations.ActivateSetsAliveFlag := by
  intro s i c later hc hb hh hi
  have hlt : i < nCores s := (List.getElem?_eq_some_iff.1 hi).1
  rcases activate_cases i { s with host := later } with ⟨hmissing, _⟩ | ⟨_, e⟩
  · exact absurd hlt (Nat.not_lt.2 hmissing)
  refine ⟨_, (step_hostAction hc hb hh).trans e, ?_, ?_, ?_⟩
  · have hset : (coreList s).modify i reviveCore = (coreList s).set i (reviveCore c) := by
      rw [List.modify_eq_set_getElem?, hi]; rfl
    exact (coreList_modifyCore _ i reviveCore).trans hset
  · exact (turnOf_modifyCore _ i reviveCore).trans (congrArg List.length hb)
  · obtain ⟨_, _, hmodify⟩ := modifyCore_betweenTicks (s := { s with host := later }) i reviveCore hb
    rw [hmodify]

/-- Settles O42: the record is there after the first fault, and the Core is dead. -/
theorem faultHaltsCoreAndRecords : Obligations.FaultHaltsCoreAndRecords := by
  intro s cause cause' info info'
  refine ⟨takeFault_eq_faultTaken s cause info, ?_⟩
  rw [takeFault_eq_faultTaken, takeFault_eq_faultTaken]
  rfl

/-- Settles O49, from the list of all that a step refuses. -/
theorem stepRefusesOnlyWhatTheSpecRefuses : Obligations.StepRefusesOnlyWhatTheSpecRefuses := by
  intro s
  refine ⟨?_, ?_, ?_, fun m => ?_, nofun⟩
  · simp [step_refused_iff, not_hostRefuses_of_ne]
  · simp [step_refused_iff, pending_secondBootup_iff]
  · simp [step_refused_iff, pending_noSuchCore_iff]
  · simp [step_refused_iff, not_hostRefuses_of_ne]

/-- Settles O51: the copy is a block from address 0, and Core 0 has the turn. -/
theorem bootupCopiesBootloader : Obligations.BootupCopiesBootloader := by
  intro s hc hbooted hb hwf later hh
  rcases bootup_cases { s with host := later } with ⟨hbooted', _⟩ | ⟨_, e⟩
  · exact absurd (hbooted.symm.trans hbooted') Bool.false_ne_true
  rw [modifyCore_zero (s := bootloaded { s with host := later }) reviveCore hb] at e
  have hram := readWord_bootloaded (s := { s with host := later }) hwf
  refine ⟨_, (step_hostAction hc hb hh).trans e, fun k w hk hw => ?_, fun k hk => ?_, rfl⟩
  · exact (hram k).trans (by rw [if_pos hk, hw]; rfl)
  · refine (hram k).trans ?_
    split
    · rename_i hlt
      rw [List.getElem?_eq_none (hk.resolve_left (Nat.not_le.2 hlt))]; rfl
    · rfl

end Sys2Proof.Machine
